-- ==== Sys2Proof/Word.lean ====
section
/-! DEFINITION. The machine's word, its byte halves and its register numbers (00_scope.md R7, R9; 10_state.md R14). -/

namespace Sys2Proof

/-- The native 16-bit data, instruction and address unit (00_scope.md R7, R9). -/
abbrev Word := BitVec 16

/-- Half a word: only how `Machine.Memory` keeps a word (20_memory.md R37: no access of the block is narrower than a word). -/
abbrev Byte := BitVec 8

/-- A register number, 0 to 15 (10_state.md R14). -/
abbrev Reg := Fin 16

end Sys2Proof
end

