-- ==== Sys2Proof/Config.lean ====
section
/-! DEFINITION. The OPEN parameters of 00_scope.md R7 and one of the model's own, as data, and the free values the spec leaves to the execution layer. -/

namespace Sys2Proof.Config

/-- CLASSIFIER_READING (30_encoding.md R49, 92_eei_decisions.md D1). -/
inductive ClassifierReading where
  | msp430
  | lsbFirstLiteral
  | msbFirstLiteral
  deriving DecidableEq, Repr

/-- SINGLE_BW_BIT: which bit of a single-operand word is its width flag (30_encoding.md R52, R53). -/
inductive SingleBwBit where
  | six
  | five
  deriving DecidableEq, Repr

/-- PC_INDEX_BASE: the pc value that Indexed mode on register 0 adds to (40_operand_resolver.md R87). -/
inductive PcIndexBase where
  | afterExtension
  | atExtension
  deriving DecidableEq, Repr

/-- ADDR_OVERFLOW: what an address outside 0x0000 to 0xFFFF does (40_operand_resolver.md R83, 20_memory.md R34). -/
inductive AddrOverflow where
  | wrap
  | fault
  deriving DecidableEq, Repr

/-- What becomes of the pc at RETI. DESIGN CHOICE (log entry 11), safe: the model's own parameter, no OPEN one of the spec. -/
inductive RetiPc where
  /-- The layer leaves the pc, so the word after RETI is fetched as the next instruction (41_single_operand.md R117,
  70_reset_and_hazards.md R169). -/
  | followingWord
  /-- The layer makes the pc change that 41_single_operand.md R110 gives to it; the new pc is a free value. -/
  | layerChanges
  deriving DecidableEq, Repr

/-- The OPEN parameters together (00_scope.md R7), and the model's own `retiPc` (log entry 11). INIT_CONTEXT is the argument of
`Machine.State.ofContext`. -/
structure Params where
  reading : ClassifierReading
  singleBwBit : SingleBwBit
  pcIndexBase : PcIndexBase
  addrOverflow : AddrOverflow
  retiPc : RetiPc
  deriving DecidableEq, Repr

/-- The default of every OPEN parameter (00_scope.md R7), and for RETI what R117 and R169 say. -/
def Params.default : Params :=
  { reading := .msp430, singleBwBit := .six, pcIndexBase := .afterExtension, addrOverflow := .wrap,
    retiPc := .followingWord }

/-- The free values (log entry 5): the `n`-th word the execution layer produces where the spec states no value
(41_single_operand.md R110, 43_double_operand.md R135). It has no body: nothing is known of any value of it. -/
opaque freeWord : Nat → Word

end Sys2Proof.Config
end

