-- ==== Sys2Proof/Syntax/Tags.lean ====
section
/-! DEFINITION. The tags an instruction is made of: formats, addressing-mode tags, operand references, and the opcode and
condition names of the constant tables (30_encoding.md R48, R57, R60 to R67). -/

namespace Sys2Proof

/-- The three instruction formats (30_encoding.md R48). -/
inductive Format where
  | singleOperand
  | jump
  | doubleOperand
  deriving DecidableEq, Repr

/-- The addressing-mode tags of the three alphabets (30_encoding.md R61, R62, R63). -/
inductive ModeTag where
  | direct
  | indexed
  | indirect
  | indirectIncrement
  | absoluteAddressing
  | const0
  | const1
  | const2
  | const4
  | const8
  | constNeg1
  deriving DecidableEq, Repr

/-- "a register number plus its resolved addressing-mode tag"; the scratch slot is not modelled (10_state.md R28,
30_encoding.md R57). -/
structure OperandRef where
  reg : Reg
  mode : ModeTag
  deriving DecidableEq, Repr

/-- The eight jump conditions (30_encoding.md R65, 42_jump.md R118). -/
inductive Cond where
  | notEqual
  | equal
  | lower
  | carrySet
  | negative
  | greaterOrEqual
  | lessThan
  | always
  deriving DecidableEq, Repr

/-- The single-operand opcodes (30_encoding.md R66). -/
inductive SingleOp where
  | rrc
  | swpb
  | rra
  | sxt
  | push
  | call
  | reti
  deriving DecidableEq, Repr

/-- The double-operand opcodes (30_encoding.md R67). -/
inductive DoubleOp where
  | mov
  | add
  | addc
  | subc
  | sub
  | cmp
  | dadd
  | bit
  | bic
  | bis
  | xor
  | and
  deriving DecidableEq, Repr

end Sys2Proof
end

