-- ==== Sys2Proof/Syntax.lean ====
section
/-! DEFINITION. The decoded instruction: one constructor for each row of spec/opcode_table.json (30_encoding.md R57). -/

namespace Sys2Proof

/-- A decoded instruction. A single-operand constructor holds the width flag and the operand (the spec's field name for it is
"destination" whatever its role, 41_single_operand.md R107); a jump holds its offset sign-extended to a word (42_jump.md R121);
a double-operand constructor holds the source, the width flag and the destination (43_double_operand.md R132). Extension words
are no part of it: they are consumed at resolution (30_encoding.md R51, R59). -/
inductive Instr where
  | rrc (b : Bool) (dst : OperandRef)
  | swpb (b : Bool) (dst : OperandRef)
  | rra (b : Bool) (dst : OperandRef)
  | sxt (b : Bool) (dst : OperandRef)
  | push (b : Bool) (dst : OperandRef)
  | call (b : Bool) (dst : OperandRef)
  | reti (b : Bool) (dst : OperandRef)
  | jne (offset : Word)
  | jeq (offset : Word)
  | jnc (offset : Word)
  | jc (offset : Word)
  | jn (offset : Word)
  | jge (offset : Word)
  | jl (offset : Word)
  | jmp (offset : Word)
  | mov (src : OperandRef) (b : Bool) (dst : OperandRef)
  | add (src : OperandRef) (b : Bool) (dst : OperandRef)
  | addc (src : OperandRef) (b : Bool) (dst : OperandRef)
  | subc (src : OperandRef) (b : Bool) (dst : OperandRef)
  | sub (src : OperandRef) (b : Bool) (dst : OperandRef)
  | cmp (src : OperandRef) (b : Bool) (dst : OperandRef)
  | dadd (src : OperandRef) (b : Bool) (dst : OperandRef)
  | bit (src : OperandRef) (b : Bool) (dst : OperandRef)
  | bic (src : OperandRef) (b : Bool) (dst : OperandRef)
  | bis (src : OperandRef) (b : Bool) (dst : OperandRef)
  | xor (src : OperandRef) (b : Bool) (dst : OperandRef)
  | and (src : OperandRef) (b : Bool) (dst : OperandRef)
  deriving DecidableEq, Repr

end Sys2Proof
end

