-- ==== Sys2Proof/WellFormed.lean ====
section
/-! DEFINITION. Which instruction values a word can stand for, under each setting of the OPEN parameters: the tuples that
30_encoding.md R73 calls constructible. -/

namespace Sys2Proof

/-- The tag is in the alphabet of the operand's register (30_encoding.md R60 to R63). -/
def OperandRef.inAlphabet (op : OperandRef) : Bool :=
  if op.reg = 2 then op.mode ∈ [.direct, .absoluteAddressing, .const4, .const8]
  else if op.reg = 3 then op.mode ∈ [.const0, .const1, .const2, .constNeg1]
  else op.mode ∈ [.direct, .indexed, .indirect, .indirectIncrement]

/-- The tag is one a one-bit destination mode code can name (30_encoding.md R56). -/
def OperandRef.inOneBitAlphabet (op : OperandRef) : Bool :=
  if op.reg = 2 then op.mode ∈ [.direct, .absoluteAddressing]
  else if op.reg = 3 then op.mode ∈ [.const0, .const1]
  else op.mode ∈ [.direct, .indexed]

/-- The tags whose mode code is 2 or 3, so that bit 5 of a single-operand word is set (30_encoding.md R61 to R63). -/
def ModeTag.highCode (t : ModeTag) : Bool :=
  t ∈ [.indirect, .indirectIncrement, .const2, .constNeg1, .const4, .const8]

/-- The width flag is free where it has a bit of its own; under SINGLE_BW_BIT = 5 it is the high bit of the mode code
(30_encoding.md R53, R73). -/
def widthFlagFits (p : Config.Params) (b : Bool) (op : OperandRef) : Bool :=
  match p.singleBwBit with
  | .six => true
  | .five => b == op.mode.highCode

/-- A single-operand instruction's fields. -/
def singleFits (p : Config.Params) (b : Bool) (dst : OperandRef) : Bool :=
  dst.inAlphabet && widthFlagFits p b dst

/-- The offset is a sign-extended 10-bit field: -512 to +511 (30_encoding.md R54). -/
def offsetFits (offset : Word) : Bool :=
  -512 ≤ offset.toInt && offset.toInt ≤ 511

/-- A double-operand instruction's fields. -/
def doubleFits (src dst : OperandRef) : Bool :=
  src.inAlphabet && dst.inOneBitAlphabet

/-- The instruction is the decoding of some word under the parameters `p`. Two readings of the classifier leave no word for some
opcodes: JNE's words are SingleOperand under `lsb_first_literal`, and the words of SUB and CMP, opcodes 0x8 and 0x9, are Jump
under `msb_first_literal` (30_encoding.md R50, R67). DEDUCED: R69's remark names SUB and SUBC there (log entry 7). -/
def Instr.wellFormed (p : Config.Params) : Instr → Bool
  | .rrc b dst => singleFits p b dst
  | .swpb b dst => singleFits p b dst
  | .rra b dst => singleFits p b dst
  | .sxt b dst => singleFits p b dst
  | .push b dst => singleFits p b dst
  | .call b dst => singleFits p b dst
  | .reti b dst => singleFits p b dst
  | .jne offset => offsetFits offset && p.reading != .lsbFirstLiteral
  | .jeq offset => offsetFits offset
  | .jnc offset => offsetFits offset
  | .jc offset => offsetFits offset
  | .jn offset => offsetFits offset
  | .jge offset => offsetFits offset
  | .jl offset => offsetFits offset
  | .jmp offset => offsetFits offset
  | .mov src _ dst => doubleFits src dst
  | .add src _ dst => doubleFits src dst
  | .addc src _ dst => doubleFits src dst
  | .subc src _ dst => doubleFits src dst
  | .sub src _ dst => doubleFits src dst && p.reading != .msbFirstLiteral
  | .cmp src _ dst => doubleFits src dst && p.reading != .msbFirstLiteral
  | .dadd src _ dst => doubleFits src dst
  | .bit src _ dst => doubleFits src dst
  | .bic src _ dst => doubleFits src dst
  | .bis src _ dst => doubleFits src dst
  | .xor src _ dst => doubleFits src dst
  | .and src _ dst => doubleFits src dst

end Sys2Proof
end

