-- ==== Sys2Proof/Decode.lean ====
section
/-! DEFINITION. The format classifier, the bitfield decoder with its constant tables, the inverse encoder, and the number of
extension words an operand consumes (30_encoding.md). -/

namespace Sys2Proof

/-- `w[lo+n-1 : lo]` (00_scope.md R8). -/
def field (w : Word) (lo n : Nat) : BitVec n := w.extractLsb' lo n

/-- A register field as a register number. -/
def regOfField (f : BitVec 4) : Reg := f.toFin

/-- A register number as a register field. -/
def fieldOfReg (r : Reg) : BitVec 4 := BitVec.ofFin r

/-- `sext_10` (00_scope.md R9). -/
def sext10 (f : BitVec 10) : Word := f.signExtend 16

/-- Which format a word has; the SingleOperand test comes first (30_encoding.md R48, R49). -/
def classify (reading : Config.ClassifierReading) (w : Word) : Format :=
  match reading with
  | .msp430 =>
    if w &&& 0xFC00 = 0x1000 then .singleOperand else if w &&& 0xE000 = 0x2000 then .jump else .doubleOperand
  | .lsbFirstLiteral =>
    if w &&& 0xFC00 = 0x2000 then .singleOperand else if w &&& 0xE000 = 0x2000 then .jump else .doubleOperand
  | .msbFirstLiteral =>
    if w &&& 0xFC00 = 0x1000 then .singleOperand else if w &&& 0xE000 = 0x8000 then .jump else .doubleOperand

/-- The general alphabet, registers 0, 1 and 4 to 15 (30_encoding.md R61). -/
def generalAlphabet (code : BitVec 2) : ModeTag :=
  match code.toFin with
  | 0 => .direct
  | 1 => .indexed
  | 2 => .indirect
  | 3 => .indirectIncrement

/-- The status-register alphabet, register 2 (30_encoding.md R62). -/
def srAlphabet (code : BitVec 2) : ModeTag :=
  match code.toFin with
  | 0 => .direct
  | 1 => .absoluteAddressing
  | 2 => .const4
  | 3 => .const8

/-- The zero-register alphabet, register 3 (30_encoding.md R63). -/
def zeroAlphabet (code : BitVec 2) : ModeTag :=
  match code.toFin with
  | 0 => .const0
  | 1 => .const1
  | 2 => .const2
  | 3 => .constNeg1

/-- The register number alone chooses the alphabet (30_encoding.md R60). -/
def modeOf (reg : Reg) (code : BitVec 2) : ModeTag :=
  if reg = 2 then srAlphabet code else if reg = 3 then zeroAlphabet code else generalAlphabet code

/-- The jump condition table, `w[12:10]` (30_encoding.md R65). -/
def condTable (code : BitVec 3) : Cond :=
  match code.toFin with
  | 0 => .notEqual
  | 1 => .equal
  | 2 => .lower
  | 3 => .carrySet
  | 4 => .negative
  | 5 => .greaterOrEqual
  | 6 => .lessThan
  | 7 => .always

/-- The single-operand opcode table, `w[9:7]`; code 111 has no entry (30_encoding.md R66). -/
def singleOpTable (code : BitVec 3) : Option SingleOp :=
  match code.toFin with
  | 0 => some .rrc
  | 1 => some .swpb
  | 2 => some .rra
  | 3 => some .sxt
  | 4 => some .push
  | 5 => some .call
  | 6 => some .reti
  | 7 => none

/-- The double-operand opcode table, `w[15:12]`; codes 0x0 to 0x3 have no entry (30_encoding.md R67). -/
def doubleOpTable (code : BitVec 4) : Option DoubleOp :=
  match code.toNat with
  | 4 => some .mov
  | 5 => some .add
  | 6 => some .addc
  | 7 => some .subc
  | 8 => some .sub
  | 9 => some .cmp
  | 10 => some .dadd
  | 11 => some .bit
  | 12 => some .bic
  | 13 => some .bis
  | 14 => some .xor
  | 15 => some .and
  | _ => none

/-- The instruction of a condition tag and an offset. -/
def mkJump (c : Cond) (offset : Word) : Instr :=
  match c with
  | .notEqual => .jne offset
  | .equal => .jeq offset
  | .lower => .jnc offset
  | .carrySet => .jc offset
  | .negative => .jn offset
  | .greaterOrEqual => .jge offset
  | .lessThan => .jl offset
  | .always => .jmp offset

/-- The instruction of a single-operand opcode and its fields. -/
def mkSingle (o : SingleOp) (b : Bool) (dst : OperandRef) : Instr :=
  match o with
  | .rrc => .rrc b dst
  | .swpb => .swpb b dst
  | .rra => .rra b dst
  | .sxt => .sxt b dst
  | .push => .push b dst
  | .call => .call b dst
  | .reti => .reti b dst

/-- The instruction of a double-operand opcode and its fields. -/
def mkDouble (o : DoubleOp) (src : OperandRef) (b : Bool) (dst : OperandRef) : Instr :=
  match o with
  | .mov => .mov src b dst
  | .add => .add src b dst
  | .addc => .addc src b dst
  | .subc => .subc src b dst
  | .sub => .sub src b dst
  | .cmp => .cmp src b dst
  | .dadd => .dadd src b dst
  | .bit => .bit src b dst
  | .bic => .bic src b dst
  | .bis => .bis src b dst
  | .xor => .xor src b dst
  | .and => .and src b dst

/-- What an UnknownOpcode failure records: the format, the opcode field's value and the word (60_exceptions.md R150). -/
structure UnknownOpcode where
  format : Format
  code : Nat
  word : Word
  deriving DecidableEq, Repr

/-- The position of the single-operand width flag (30_encoding.md R52, R53). -/
def singleBwPos (p : Config.Params) : Nat :=
  match p.singleBwBit with
  | .six => 6
  | .five => 5

/-- An operand reference from its register field and mode code (30_encoding.md R57). -/
def operandOf (regField : BitVec 4) (code : BitVec 2) : OperandRef :=
  { reg := regOfField regField, mode := modeOf (regOfField regField) code }

/-- The SingleOperand branch of `decode` (30_encoding.md R52, R57; 41_single_operand.md R107). -/
def decodeSingle (p : Config.Params) (w : Word) : Except UnknownOpcode Instr :=
  match singleOpTable (field w 7 3) with
  | none => .error { format := .singleOperand, code := (field w 7 3).toNat, word := w }
  | some o => .ok (mkSingle o (w.getLsbD (singleBwPos p)) (operandOf (field w 0 4) (field w 4 2)))

/-- The Jump branch of `decode` (30_encoding.md R54, R57; 42_jump.md R121). -/
def decodeJump (w : Word) : Instr :=
  mkJump (condTable (field w 10 3)) (sext10 (field w 0 10))

/-- The DoubleOperand branch of `decode` (30_encoding.md R55, R57; 43_double_operand.md R132). -/
def decodeDouble (w : Word) : Except UnknownOpcode Instr :=
  match doubleOpTable (field w 12 4) with
  | none => .error { format := .doubleOperand, code := (field w 12 4).toNat, word := w }
  | some o =>
    .ok (mkDouble o (operandOf (field w 8 4) (field w 4 2)) (w.getLsbD 6)
      (operandOf (field w 0 4) ((field w 7 1).zeroExtend 2)))

/-- `decode(w)`: a pure function of the word and of two parameters (30_encoding.md R57, R59, R68, R80). -/
def decode (p : Config.Params) (w : Word) : Except UnknownOpcode Instr :=
  match classify p.reading w with
  | .singleOperand => decodeSingle p w
  | .jump => .ok (decodeJump w)
  | .doubleOperand => decodeDouble w

/-! ### The inverse encoder (30_encoding.md R73) -/

/-- The format pattern in bits 15:10 of a SingleOperand word (30_encoding.md R49). -/
def singlePattern (reading : Config.ClassifierReading) : BitVec 6 :=
  match reading with
  | .msp430 => 0b000100#6
  | .lsbFirstLiteral => 0b001000#6
  | .msbFirstLiteral => 0b000100#6

/-- The format pattern in bits 15:13 of a Jump word (30_encoding.md R49). -/
def jumpPattern (reading : Config.ClassifierReading) : BitVec 3 :=
  match reading with
  | .msp430 => 0b001#3
  | .lsbFirstLiteral => 0b001#3
  | .msbFirstLiteral => 0b100#3

/-- The mode code of a tag; within one register's alphabet it inverts `modeOf` (30_encoding.md R61 to R64). -/
def codeOfTag (t : ModeTag) : BitVec 2 :=
  match t with
  | .direct => 0
  | .indexed => 1
  | .indirect => 2
  | .indirectIncrement => 3
  | .absoluteAddressing => 1
  | .const0 => 0
  | .const1 => 1
  | .const2 => 2
  | .const4 => 2
  | .const8 => 3
  | .constNeg1 => 3

/-- A condition's code (30_encoding.md R65). -/
def codeOfCond (c : Cond) : BitVec 3 :=
  match c with
  | .notEqual => 0
  | .equal => 1
  | .lower => 2
  | .carrySet => 3
  | .negative => 4
  | .greaterOrEqual => 5
  | .lessThan => 6
  | .always => 7

/-- A single-operand opcode's code (30_encoding.md R66). -/
def codeOfSingleOp (o : SingleOp) : BitVec 3 :=
  match o with
  | .rrc => 0
  | .swpb => 1
  | .rra => 2
  | .sxt => 3
  | .push => 4
  | .call => 5
  | .reti => 6

/-- A double-operand opcode's code (30_encoding.md R67). -/
def codeOfDoubleOp (o : DoubleOp) : BitVec 4 :=
  match o with
  | .mov => 0x4
  | .add => 0x5
  | .addc => 0x6
  | .subc => 0x7
  | .sub => 0x8
  | .cmp => 0x9
  | .dadd => 0xA
  | .bit => 0xB
  | .bic => 0xC
  | .bis => 0xD
  | .xor => 0xE
  | .and => 0xF

/-- Bit 6 of a SingleOperand word: the width flag, or, under SINGLE_BW_BIT = 5, a bit no field reads, written 0
(30_encoding.md R52, R53, R74; log entry 8). -/
def singleBit6 (p : Config.Params) (b : Bool) : BitVec 1 :=
  match p.singleBwBit with
  | .six => BitVec.ofBool b
  | .five => 0

/-- The word of a single-operand instruction (30_encoding.md R52). -/
def encodeSingle (p : Config.Params) (o : SingleOp) (b : Bool) (dst : OperandRef) : Word :=
  singlePattern p.reading ++ codeOfSingleOp o ++ singleBit6 p b ++ codeOfTag dst.mode ++ fieldOfReg dst.reg

/-- The word of a jump (30_encoding.md R54). -/
def encodeJump (p : Config.Params) (c : Cond) (offset : Word) : Word :=
  jumpPattern p.reading ++ codeOfCond c ++ field offset 0 10

/-- Bit 7 of a DoubleOperand word, the one-bit destination mode code (30_encoding.md R56). -/
def adBit (t : ModeTag) : BitVec 1 := (codeOfTag t).extractLsb' 0 1

/-- The word of a double-operand instruction (30_encoding.md R55). -/
def encodeDouble (o : DoubleOp) (src : OperandRef) (b : Bool) (dst : OperandRef) : Word :=
  codeOfDoubleOp o ++ fieldOfReg src.reg ++ adBit dst.mode ++ BitVec.ofBool b ++ codeOfTag src.mode ++ fieldOfReg dst.reg

/-- The word a well-formed instruction is decoded from (30_encoding.md R73). -/
def encode (p : Config.Params) : Instr → Word
  | .rrc b dst => encodeSingle p .rrc b dst
  | .swpb b dst => encodeSingle p .swpb b dst
  | .rra b dst => encodeSingle p .rra b dst
  | .sxt b dst => encodeSingle p .sxt b dst
  | .push b dst => encodeSingle p .push b dst
  | .call b dst => encodeSingle p .call b dst
  | .reti b dst => encodeSingle p .reti b dst
  | .jne offset => encodeJump p .notEqual offset
  | .jeq offset => encodeJump p .equal offset
  | .jnc offset => encodeJump p .lower offset
  | .jc offset => encodeJump p .carrySet offset
  | .jn offset => encodeJump p .negative offset
  | .jge offset => encodeJump p .greaterOrEqual offset
  | .jl offset => encodeJump p .lessThan offset
  | .jmp offset => encodeJump p .always offset
  | .mov src b dst => encodeDouble .mov src b dst
  | .add src b dst => encodeDouble .add src b dst
  | .addc src b dst => encodeDouble .addc src b dst
  | .subc src b dst => encodeDouble .subc src b dst
  | .sub src b dst => encodeDouble .sub src b dst
  | .cmp src b dst => encodeDouble .cmp src b dst
  | .dadd src b dst => encodeDouble .dadd src b dst
  | .bit src b dst => encodeDouble .bit src b dst
  | .bic src b dst => encodeDouble .bic src b dst
  | .bis src b dst => encodeDouble .bis src b dst
  | .xor src b dst => encodeDouble .xor src b dst
  | .and src b dst => encodeDouble .and src b dst

/-! ### Lengths and operands -/

/-- The format of an instruction (30_encoding.md R57). -/
def Instr.format : Instr → Format
  | .rrc _ _ => .singleOperand
  | .swpb _ _ => .singleOperand
  | .rra _ _ => .singleOperand
  | .sxt _ _ => .singleOperand
  | .push _ _ => .singleOperand
  | .call _ _ => .singleOperand
  | .reti _ _ => .singleOperand
  | .jne _ => .jump
  | .jeq _ => .jump
  | .jnc _ => .jump
  | .jc _ => .jump
  | .jn _ => .jump
  | .jge _ => .jump
  | .jl _ => .jump
  | .jmp _ => .jump
  | .mov _ _ _ => .doubleOperand
  | .add _ _ _ => .doubleOperand
  | .addc _ _ _ => .doubleOperand
  | .subc _ _ _ => .doubleOperand
  | .sub _ _ _ => .doubleOperand
  | .cmp _ _ _ => .doubleOperand
  | .dadd _ _ _ => .doubleOperand
  | .bit _ _ _ => .doubleOperand
  | .bic _ _ _ => .doubleOperand
  | .bis _ _ _ => .doubleOperand
  | .xor _ _ _ => .doubleOperand
  | .and _ _ _ => .doubleOperand

/-- The operand references an instruction holds, the source first. -/
def Instr.operands : Instr → List OperandRef
  | .rrc _ dst => [dst]
  | .swpb _ dst => [dst]
  | .rra _ dst => [dst]
  | .sxt _ dst => [dst]
  | .push _ dst => [dst]
  | .call _ dst => [dst]
  | .reti _ dst => [dst]
  | .jne _ => []
  | .jeq _ => []
  | .jnc _ => []
  | .jc _ => []
  | .jn _ => []
  | .jge _ => []
  | .jl _ => []
  | .jmp _ => []
  | .mov src _ dst => [src, dst]
  | .add src _ dst => [src, dst]
  | .addc src _ dst => [src, dst]
  | .subc src _ dst => [src, dst]
  | .sub src _ dst => [src, dst]
  | .cmp src _ dst => [src, dst]
  | .dadd src _ dst => [src, dst]
  | .bit src _ dst => [src, dst]
  | .bic src _ dst => [src, dst]
  | .bis src _ dst => [src, dst]
  | .xor src _ dst => [src, dst]
  | .and src _ dst => [src, dst]

/-- `ExtWords(reg, tag)`: the extension words an operand consumes when it is resolved (30_encoding.md R71). -/
def OperandRef.extWords (op : OperandRef) : Nat :=
  match op.mode with
  | .indexed => 1
  | .absoluteAddressing => 1
  | .indirect => if op.reg = 0 then 1 else 0
  | .indirectIncrement => if op.reg = 0 then 1 else 0
  | .direct => 0
  | .const0 => 0
  | .const1 => 0
  | .const2 => 0
  | .const4 => 0
  | .const8 => 0
  | .constNeg1 => 0

/-! ### The host's view of the decoder -/

/-- The instruction the decoder reads from an opcode-table row's bits, under the default parameters that the table's `match`
values assume. The instruction word is the row's first 16 bits; the words above it are extension words, which decoding does not
read (30_encoding.md R59). -/
def decodeTableWord (nbits w : Nat) : Option Instr :=
  match decode .default (BitVec.ofNat 16 (w % 2 ^ nbits)) with
  | .ok i => some i
  | .error _ => none

end Sys2Proof
end

