-- ==== Sys2Proof/Machine/State.lean ====
section
/-! DEFINITION. The machine's state as plain data: the context of 10_state.md R13, what was last handed to the execution layer,
the OPEN parameters, and the count of free values drawn. The ways a step can stop. The initial context and reset. -/

namespace Sys2Proof.Machine

/-- An access event (10_state.md R13; 20_memory.md R33, R34). -/
inductive Event where
  | fetch (a : Word)
  | read (a : Word)
  deriving DecidableEq, Repr

/-- What `resolve_destination` returns: a register or a word of memory (00_scope.md R11). -/
inductive Location where
  | reg (n : Reg)
  | mem (a : Word)
  deriving DecidableEq, Repr

/-- The opcode part of a handed-over instruction. -/
inductive Opcode where
  | single (o : SingleOp)
  | double (o : DoubleOp)
  deriving DecidableEq, Repr

/-- The operand part of what the block hands over: nothing (RETI), a value (source role), a location (destination role), or
both (41_single_operand.md R110, 43_double_operand.md R135). -/
inductive Handed where
  | nothing
  | value (v : Word)
  | location (l : Location)
  | both (v : Word) (l : Location)
  deriving DecidableEq, Repr

/-- What the block hands to the execution layer for one instruction (41_single_operand.md R110, 43_double_operand.md R135). -/
structure Handoff where
  op : Opcode
  b : Bool
  operand : Handed
  deriving DecidableEq, Repr

/-- Memory as its non-zero bytes: word `a` of the spec's M is kept as the bytes at `2 * a` (its low byte) and `2 * a + 1`.
DESIGN CHOICE (log entry 2), safe: every operation reads and writes whole words, so no byte order can be seen
(20_memory.md R37). -/
abbrev Memory := List Host.Cell

/-- The machine's state. -/
structure State where
  /-- The OPEN parameters (00_scope.md R7) and the model's own (log entry 11), fixed for a run (log entry 3). -/
  params : Config.Params
  /-- The register file x[0..15] (10_state.md R14); read and written through `State.readReg` and `State.writeReg` only. -/
  regs : Vector Word 16
  /-- The memory M (10_state.md R13, 20_memory.md R31). -/
  mem : Memory
  /-- The access events in order (10_state.md R13). -/
  ev : List Event
  /-- What the current instruction handed to the execution layer; none after a fetch and for a jump (log entry 6). -/
  handoff : Option Handoff
  /-- How many free values have been drawn: the model's own field (log entry 5). -/
  freeIdx : Nat
  deriving DecidableEq, Repr

/-- The failure kinds with what each records (60_exceptions.md R149). -/
inductive FaultInfo where
  /-- Raised by `decode` for a code with no table entry (60_exceptions.md R150). Safe: the spec's own failure. -/
  | unknownOpcode (format : Format) (code : Nat) (word : Word)
  /-- Raised by `resolve_destination` for a source-only tag (60_exceptions.md R153). Safe: the spec's own failure. -/
  | invalidDestinationMode (reg : Reg) (tag : ModeTag)
  /-- Raised by the stream fetch and the address adder under ADDR_OVERFLOW = fault only (60_exceptions.md R154). Safe: the spec's
  own failure. -/
  | addressOverflow (value : Int)
  deriving DecidableEq, Repr

/-- The outcome `Fault(kind, info, ctx0)` (60_exceptions.md R152, R157). -/
inductive Fault where
  /-- Raised by `State.raise` for every failure of a step: what failed, and the context the failure leaves, with the whole
  instruction rolled back. Safe: a failure is terminal (60_exceptions.md R157). -/
  | raised (info : FaultInfo) (ctx0 : State)
  deriving DecidableEq, Repr

/-- Why a step could have no meaning. No step of this model answers so. -/
inductive Refusal where
  /-- For an arm of `exec` that has no meaning yet; no arm uses it. Safe: the machine stops. -/
  | notModelled (mnemonic : String)
  deriving DecidableEq, Repr

/-- The context at the start of the first operation, for any value of the OPEN parameters and of INIT_CONTEXT: x[3] is 0, no
event has happened, and nothing transient exists (10_state.md R29). -/
def State.ofContext (params : Config.Params) (regs : Vector Word 16) (mem : Memory) : State :=
  { params := params, regs := regs.set 3 0, mem := mem, ev := [], handoff := none, freeIdx := 0 }

/-- The state the machine starts in: the parameters at their defaults, x[3] = 0 and ev empty as 10_state.md R29 gives them, and
every register R29 leaves unspecified at 0x0000 with no memory listed. DESIGN CHOICE (log entries 1 and 2), unsafe: a claim
must quantify over every context, as `State.ofContext` does. -/
def State.reset : State :=
  State.ofContext .default (Vector.replicate 16 0) []

end Sys2Proof.Machine
end

