-- ==== Sys2Proof/Machine/Ops.lean ====
section
/-! DEFINITION. The named operations over registers, memory, the event list and the program counter; the effective-address
adder; the instruction-word fetch; and how a step stops (00_scope.md R10; 20_memory.md; 60_exceptions.md R151, R152). -/

namespace Sys2Proof.Machine

/-! ### Memory as bytes -/

/-- The byte at `k`; an unlisted byte reads 0 (DESIGN CHOICE, log entry 2). -/
def Memory.byte (m : Memory) (k : Nat) : Byte :=
  match m with
  | [] => 0
  | c :: rest => if c.1 = k then c.2 else Memory.byte rest k

/-- A cell put before the first cell with a greater key. -/
def Memory.insert (m : Memory) (k : Nat) (v : Byte) : Memory :=
  match m with
  | [] => [(k, v)]
  | c :: rest => if k < c.1 then (k, v) :: c :: rest else c :: Memory.insert rest k v

/-- The byte at `k` becomes `v`; a zero byte is not listed. -/
def Memory.setByte (m : Memory) (k : Nat) (v : Byte) : Memory :=
  let rest := m.filter (fun c => c.1 ≠ k)
  if v = 0 then rest else Memory.insert rest k v

/-- `M[a]` (20_memory.md R31). -/
def Memory.word (m : Memory) (a : Word) : Word :=
  m.byte (2 * a.toNat + 1) ++ m.byte (2 * a.toNat)

/-- `M[a] <- v` (40_operand_resolver.md R101). -/
def Memory.setWord (m : Memory) (a v : Word) : Memory :=
  (m.setByte (2 * a.toNat) (v.extractLsb' 0 8)).setByte (2 * a.toNat + 1) (v.extractLsb' 8 8)

/-- The canonical form: keys strictly rising, no zero byte listed, and no key beyond the last word's. -/
abbrev Memory.wf (m : Memory) : Prop :=
  m.Pairwise (fun c d => c.1 < d.1) ∧ ∀ c ∈ m, c.2 ≠ 0 ∧ c.1 < 2 * 65536

/-! ### Registers -/

/-- `x[r]`; register 3 always reads 0 (10_state.md R14, R15). -/
def State.readReg (s : State) (r : Reg) : Word :=
  if r = 3 then 0 else s.regs[r.val]

/-- `x[r] <- v`; a write to register 3 is discarded (10_state.md R15). -/
def State.writeReg (s : State) (r : Reg) (v : Word) : State :=
  if r = 3 then s else { s with regs := s.regs.set r.val v }

/-- The program counter, another name for x[0] (10_state.md R18). -/
def State.pc (s : State) : Word := s.readReg 0

/-- `pc <- target` (00_scope.md R10). -/
def State.setPc (s : State) (target : Word) : State := s.writeReg 0 target

/-- The stack pointer, x[1] (10_state.md R16). -/
def State.sp (s : State) : Word := s.readReg 1

/-- The status word, x[2] (10_state.md R22). -/
def State.status (s : State) : Word := s.readReg 2

/-! ### Events, memory and locations in the state -/

/-- One more event at the end of `ev`. -/
def State.logEvent (s : State) (e : Event) : State := { s with ev := s.ev ++ [e] }

/-- `M[a] <- v`, recording no event (40_operand_resolver.md R101). -/
def State.writeMem (s : State) (a v : Word) : State := { s with mem := s.mem.setWord a v }

/-- `Write(loc, v)` (40_operand_resolver.md R101). -/
def State.writeLoc (s : State) (loc : Location) (v : Word) : State :=
  match loc with
  | .reg n => s.writeReg n v
  | .mem a => s.writeMem a v

/-- The block's hand-over to the execution layer (41_single_operand.md R110, 43_double_operand.md R135). -/
def State.handOver (s : State) (h : Handoff) : State := { s with handoff := some h }

/-- Nothing is handed over: the hand-over of the instruction before is consumed (10_state.md R28; log entry 6). -/
def State.clearHandoff (s : State) : State := { s with handoff := none }

/-- `k` free values have been drawn (log entry 5). -/
def State.drew (s : State) (k : Nat) : State := { s with freeIdx := s.freeIdx + k }

/-! ### Addresses, the data port and the instruction stream -/

/-- `EA(base, disp)`: the exact sum, wrapped or refused by ADDR_OVERFLOW (40_operand_resolver.md R83). -/
def effectiveAddress (p : Config.Params) (base disp : Word) : Except FaultInfo Word :=
  let sum : Int := base.toNat + disp.toInt
  match p.addrOverflow with
  | .wrap => .ok (BitVec.ofInt 16 sum)
  | .fault => if 0 ≤ sum ∧ sum ≤ 0xFFFF then .ok (BitVec.ofInt 16 sum) else .error (.addressOverflow sum)

/-- The context after `MemRead(a, 16)`: one `Read(a)` more (20_memory.md R33). The value read is `s.mem.word a`. -/
def State.afterRead (s : State) (a : Word) : State := s.logEvent (.read a)

/-- The context after a `StreamNext()` that did not fault (20_memory.md R34). -/
def State.afterStream (s : State) : State := (s.logEvent (.fetch s.pc)).setPc (s.pc + 1)

/-- `StreamNext()` (20_memory.md R34, 10_state.md R20); the overflow check comes before any effect. -/
def State.streamNext (s : State) : Except FaultInfo (Word × State) :=
  match s.params.addrOverflow with
  | .wrap => .ok (s.mem.word s.pc, s.afterStream)
  | .fault => if s.pc = 0xFFFF then .error (.addressOverflow 0xFFFF) else .ok (s.mem.word s.pc, s.afterStream)

/-- The instruction-word fetch, one `StreamNext()`; the hand-over of the instruction before is gone (10_state.md R19,
70_reset_and_hazards.md R170; log entry 6). -/
def State.fetchInstruction (s : State) : Except FaultInfo (Word × State) :=
  s.clearHandoff.streamNext

/-! ### Stopping (there is no trap entry and no trap return: 60_exceptions.md R157, R158) -/

/-- The outcome `Fault(kind, info, ctx0)`: nothing of the instruction after `ctx0` stays, nothing is saved anywhere and control
goes nowhere (60_exceptions.md R151, R152, R157). -/
def State.raise (ctx0 : State) (info : FaultInfo) : Host.Outcome State Fault Refusal :=
  .fault (.raised info ctx0)

/-- The failure `decode` signals (60_exceptions.md R150). -/
def unknownOpcodeFault (u : UnknownOpcode) : FaultInfo :=
  .unknownOpcode u.format u.code u.word

/-- The failure's number (60_exceptions.md R149). -/
def FaultInfo.code : FaultInfo → Nat
  | .unknownOpcode _ _ _ => 1
  | .invalidDestinationMode _ _ => 2
  | .addressOverflow _ => 3

/-- The faulting instruction's address, `x[0] - 1` in `ctx0` (60_exceptions.md R157). -/
def State.faultingAddress (ctx0 : State) : Word := ctx0.pc - 1

end Sys2Proof.Machine
end

