-- ==== Sys2Proof/Machine/Operands.lean ====
section
/-! DEFINITION. The operand resolver: every operand form as a source and as a destination (40_operand_resolver.md R81 to R106). -/

namespace Sys2Proof.Machine

/-- The base Indexed mode adds its displacement to. `e` is the context before the extension word is consumed and `s` the one
after it; only for register 0 do the two differ (40_operand_resolver.md R86, R87, R96). -/
def indexBase (e s : State) (r : Reg) : Word :=
  match s.params.pcIndexBase with
  | .afterExtension => s.readReg r
  | .atExtension => if r = 0 then e.pc else s.readReg r

/-- Indexed mode's address: one extension word, then the adder (40_operand_resolver.md R86, R87, R96). -/
def resolveIndexed (r : Reg) (s : State) : Except FaultInfo (Word × State) :=
  match s.streamNext with
  | .error e => .error e
  | .ok (d, s1) =>
    match effectiveAddress s1.params (indexBase s s1 r) d with
    | .error e => .error e
    | .ok a => .ok (a, s1)

/-- `MemRead` as the last step of a source operand (20_memory.md R33). -/
def readAt (a : Word) (s : State) : Except FaultInfo (Word × State) :=
  .ok (s.mem.word a, s.afterRead a)

/-- `resolve_source(op, ctx)` (40_operand_resolver.md R81, R84 to R94). -/
def resolveSource (op : OperandRef) (s : State) : Except FaultInfo (Word × State) :=
  match op.mode with
  | .direct => .ok (s.readReg op.reg, s)
  | .indexed =>
    match resolveIndexed op.reg s with
    | .error e => .error e
    | .ok (a, s1) => readAt a s1
  | .indirect => if op.reg = 0 then s.streamNext else readAt (s.readReg op.reg) s
  | .indirectIncrement =>
    if op.reg = 0 then s.streamNext
    else .ok (s.mem.word (s.readReg op.reg),
      (s.afterRead (s.readReg op.reg)).writeReg op.reg (s.readReg op.reg + 1))
  | .absoluteAddressing =>
    match s.streamNext with
    | .error e => .error e
    | .ok (a, s1) => readAt a s1
  | .const0 => .ok (0x0000, s)
  | .const1 => .ok (0x0001, s)
  | .const2 => .ok (0x0002, s)
  | .const4 => .ok (0x0004, s)
  | .const8 => .ok (0x0008, s)
  | .constNeg1 => .ok (0xFFFF, s)

/-- `resolve_destination(op, ctx)`; the tag is checked before any effect (40_operand_resolver.md R82, R95 to R100). -/
def resolveDestination (op : OperandRef) (s : State) : Except FaultInfo (Location × State) :=
  match op.mode with
  | .direct => .ok (.reg op.reg, s)
  | .indexed =>
    match resolveIndexed op.reg s with
    | .error e => .error e
    | .ok (a, s1) => .ok (.mem a, s1)
  | .absoluteAddressing =>
    match s.streamNext with
    | .error e => .error e
    | .ok (a, s1) => .ok (.mem a, s1)
  | .const0 => .ok (.reg op.reg, s)
  | .indirect => .error (.invalidDestinationMode op.reg .indirect)
  | .indirectIncrement => .error (.invalidDestinationMode op.reg .indirectIncrement)
  | .const1 => .error (.invalidDestinationMode op.reg .const1)
  | .const2 => .error (.invalidDestinationMode op.reg .const2)
  | .const4 => .error (.invalidDestinationMode op.reg .const4)
  | .const8 => .error (.invalidDestinationMode op.reg .const8)
  | .constNeg1 => .error (.invalidDestinationMode op.reg .constNeg1)

/-- `resolve_double`: the source completely, then the destination in the context the source returned
(43_double_operand.md R133, 40_operand_resolver.md R103). -/
def resolveDouble (src dst : OperandRef) (s : State) : Except FaultInfo ((Word × Location) × State) :=
  match resolveSource src s with
  | .error e => .error e
  | .ok (v, s1) =>
    match resolveDestination dst s1 with
    | .error e => .error e
    | .ok (loc, s2) => .ok ((v, loc), s2)

end Sys2Proof.Machine
end

