-- ==== Sys2Proof/Machine/ExecutionLayer.lean ====
section
/-! DEFINITION. What the execution layer does with a hand-over, inside the instruction's step. The spec puts it outside the block
(00_scope.md R5) and fixes only its outline: it reads the old destination value, computes the result and flags and writes the
result through `loc` (43_double_operand.md R135); the data result, every flag, the stack-pointer update and memory write of PUSH
and CALL, and the pc change of CALL and RETI are its own (41_single_operand.md R110). One case has a stated value: MOV with
b = 0 performs `Write(loc, v)` (70_reset_and_hazards.md R171). Every other value it produces is a free value (DESIGN CHOICE, log
entries 4 and 5), safe: whatever a real layer within that outline writes, the model writes some word there. It records no event
(10_state.md R13: the events are the block's). -/

namespace Sys2Proof.Machine

/-- The next free value. -/
def State.freeWord (s : State) (k : Nat) : Word := Config.freeWord (s.freeIdx + k)

/-- "every flag": the whole status word is free, as the layer may write register 2 in any way (10_state.md R24, R25;
41_single_operand.md R110). -/
def layerFlags (s : State) : State :=
  (s.writeReg 2 (s.freeWord 0)).drew 1

/-- A free result through the location, and free flags (43_double_operand.md R135, 41_single_operand.md R108). -/
def layerResult (loc : Location) (s : State) : State :=
  layerFlags ((s.writeLoc loc (s.freeWord 0)).drew 1)

/-- A free stack pointer, and one memory word written at a free address (41_single_operand.md R110). -/
def layerStack (s : State) : State :=
  ((s.writeReg 1 (s.freeWord 0)).writeMem (s.freeWord 1) (s.freeWord 2)).drew 3

/-- A free pc (41_single_operand.md R110). -/
def layerPc (s : State) : State :=
  (s.setPc (s.freeWord 0)).drew 1

/-- A free stack pointer with no memory write: the spec names none for RETI (41_single_operand.md R110; log entry 4). -/
def layerPop (s : State) : State :=
  (s.writeReg 1 (s.freeWord 0)).drew 1

/-- MOV: `Write(loc, v)` for b = 0; how b = 1 narrows is not stated (70_reset_and_hazards.md R171). -/
def layerMov (b : Bool) (v : Word) (loc : Location) (s : State) : State :=
  match b with
  | false => s.writeLoc loc v
  | true => layerResult loc s

/-- PUSH's stack and flags (41_single_operand.md R110, R115). -/
def layerPush (s : State) : State := layerFlags (layerStack s)

/-- CALL's stack, pc and flags (41_single_operand.md R110, R116). -/
def layerCall (s : State) : State := layerFlags (layerPc (layerStack s))

/-- RETI's pc: unchanged, so that the word after RETI is fetched as the next instruction (41_single_operand.md R117,
70_reset_and_hazards.md R169), or, under the other setting, the layer's change of it (41_single_operand.md R110). DESIGN CHOICE
(log entry 11), safe. -/
def layerRetiPc (s : State) : State :=
  match s.params.retiPc with
  | .followingWord => s
  | .layerChanges => layerPc s

/-- RETI's stack pointer, pc and flags (41_single_operand.md R110, R117). -/
def layerReti (s : State) : State := layerFlags (layerRetiPc (layerPop s))

end Sys2Proof.Machine
end

