-- ==== Sys2Proof/Machine/DoubleOperand.lean ====
section
/-! DEFINITION. The double-operand instructions (43_double_operand.md R132 to R147). `s` is ctx0, the context right after the
instruction-word fetch; a failure leaves it, so a destination that fails undoes the source (60_exceptions.md R152). -/

namespace Sys2Proof.Machine

/-- MOV: the one opcode whose execution the spec states, for b = 0 (43_double_operand.md R133, R136;
70_reset_and_hazards.md R171). -/
def execMov (src : OperandRef) (b : Bool) (dst : OperandRef) (s : State) : Host.Outcome State Fault Refusal :=
  match resolveDouble src dst s with
  | .error e => s.raise e
  | .ok ((v, loc), s2) =>
    .next (layerMov b v loc (s2.handOver { op := .double .mov, b := b, operand := .both v loc }))

/-- An opcode whose result the layer writes through the location (43_double_operand.md R133, R135). -/
def runWriting (o : DoubleOp) (src : OperandRef) (b : Bool) (dst : OperandRef) (s : State) :
    Host.Outcome State Fault Refusal :=
  match resolveDouble src dst s with
  | .error e => s.raise e
  | .ok ((v, loc), s2) =>
    .next (layerResult loc (s2.handOver { op := .double o, b := b, operand := .both v loc }))

/-- An opcode whose destination the layer only reads (43_double_operand.md R133, R141, R143). -/
def runReading (o : DoubleOp) (src : OperandRef) (b : Bool) (dst : OperandRef) (s : State) :
    Host.Outcome State Fault Refusal :=
  match resolveDouble src dst s with
  | .error e => s.raise e
  | .ok ((v, loc), s2) =>
    .next (layerFlags (s2.handOver { op := .double o, b := b, operand := .both v loc }))

/-- ADD (43_double_operand.md R137). -/
def execAdd (src : OperandRef) (b : Bool) (dst : OperandRef) (s : State) : Host.Outcome State Fault Refusal :=
  runWriting .add src b dst s

/-- ADDC (43_double_operand.md R138). -/
def execAddc (src : OperandRef) (b : Bool) (dst : OperandRef) (s : State) : Host.Outcome State Fault Refusal :=
  runWriting .addc src b dst s

/-- SUBC (43_double_operand.md R139). -/
def execSubc (src : OperandRef) (b : Bool) (dst : OperandRef) (s : State) : Host.Outcome State Fault Refusal :=
  runWriting .subc src b dst s

/-- SUB (43_double_operand.md R140). -/
def execSub (src : OperandRef) (b : Bool) (dst : OperandRef) (s : State) : Host.Outcome State Fault Refusal :=
  runWriting .sub src b dst s

/-- CMP (43_double_operand.md R141). -/
def execCmp (src : OperandRef) (b : Bool) (dst : OperandRef) (s : State) : Host.Outcome State Fault Refusal :=
  runReading .cmp src b dst s

/-- DADD (43_double_operand.md R142). -/
def execDadd (src : OperandRef) (b : Bool) (dst : OperandRef) (s : State) : Host.Outcome State Fault Refusal :=
  runWriting .dadd src b dst s

/-- BIT (43_double_operand.md R143). -/
def execBit (src : OperandRef) (b : Bool) (dst : OperandRef) (s : State) : Host.Outcome State Fault Refusal :=
  runReading .bit src b dst s

/-- BIC (43_double_operand.md R144). -/
def execBic (src : OperandRef) (b : Bool) (dst : OperandRef) (s : State) : Host.Outcome State Fault Refusal :=
  runWriting .bic src b dst s

/-- BIS (43_double_operand.md R145). -/
def execBis (src : OperandRef) (b : Bool) (dst : OperandRef) (s : State) : Host.Outcome State Fault Refusal :=
  runWriting .bis src b dst s

/-- XOR (43_double_operand.md R146). -/
def execXor (src : OperandRef) (b : Bool) (dst : OperandRef) (s : State) : Host.Outcome State Fault Refusal :=
  runWriting .xor src b dst s

/-- AND (43_double_operand.md R147). -/
def execAnd (src : OperandRef) (b : Bool) (dst : OperandRef) (s : State) : Host.Outcome State Fault Refusal :=
  runWriting .and src b dst s

end Sys2Proof.Machine
end

