-- ==== Sys2Proof/Machine/Flags.lean ====
section
/-! DEFINITION. The nine flags of the status word and the condition evaluator (10_state.md R22 to R26; 42_jump.md R118, R119). The
block computes no flag: every flag value is the execution layer's (41_single_operand.md R109, R110; 43_double_operand.md R134). -/

namespace Sys2Proof.Machine

/-- Carry, bit 0 (10_state.md R23). -/
def flagC (s : Word) : Bool := s.getLsbD 0

/-- Zero, bit 1 (10_state.md R23). -/
def flagZ (s : Word) : Bool := s.getLsbD 1

/-- Negative, bit 2 (10_state.md R23). -/
def flagN (s : Word) : Bool := s.getLsbD 2

/-- General interrupt enable, bit 3: stored, no effect (10_state.md R23, R26). -/
def flagGIE (s : Word) : Bool := s.getLsbD 3

/-- CPU off, bit 4: stored, no effect (10_state.md R23, R26). -/
def flagCPUOFF (s : Word) : Bool := s.getLsbD 4

/-- Oscillator off, bit 5: stored, no effect (10_state.md R23, R26). -/
def flagOSCOFF (s : Word) : Bool := s.getLsbD 5

/-- System clock generator control 0, bit 6: stored, no effect (10_state.md R23, R26). -/
def flagSCG0 (s : Word) : Bool := s.getLsbD 6

/-- System clock generator control 1, bit 7: stored, no effect (10_state.md R23, R26). -/
def flagSCG1 (s : Word) : Bool := s.getLsbD 7

/-- Overflow, bit 8 (10_state.md R23). -/
def flagV (s : Word) : Bool := s.getLsbD 8

/-- `evaluate_condition(cond, s)` (42_jump.md R118). -/
def evaluateCondition (c : Cond) (s : Word) : Bool :=
  match c with
  | .notEqual => !flagZ s
  | .equal => flagZ s
  | .lower => !flagC s
  | .carrySet => flagC s
  | .negative => flagN s
  | .greaterOrEqual => flagV s == flagN s
  | .lessThan => flagV s != flagN s
  | .always => true

end Sys2Proof.Machine
end

