-- ==== Sys2Proof/Machine/Jump.lean ====
section
/-! DEFINITION. The jumps (42_jump.md R120 to R131). `s` is the context right after the fetch, so its pc is A + 1. -/

namespace Sys2Proof.Machine

/-- `execute Jump{cond, offset}` (42_jump.md R120); nothing is handed over. -/
def runJump (c : Cond) (offset : Word) (s : State) : Host.Outcome State Fault Refusal :=
  match evaluateCondition c s.status with
  | false => .next s
  | true =>
    match effectiveAddress s.params s.pc offset with
    | .error e => s.raise e
    | .ok target => .next (s.setPc target)

/-- JNE (42_jump.md R123). -/
def execJne (offset : Word) (s : State) : Host.Outcome State Fault Refusal :=
  runJump .notEqual offset s

/-- JEQ (42_jump.md R124). -/
def execJeq (offset : Word) (s : State) : Host.Outcome State Fault Refusal :=
  runJump .equal offset s

/-- JNC (42_jump.md R125). -/
def execJnc (offset : Word) (s : State) : Host.Outcome State Fault Refusal :=
  runJump .lower offset s

/-- JC (42_jump.md R126). -/
def execJc (offset : Word) (s : State) : Host.Outcome State Fault Refusal :=
  runJump .carrySet offset s

/-- JN (42_jump.md R127). -/
def execJn (offset : Word) (s : State) : Host.Outcome State Fault Refusal :=
  runJump .negative offset s

/-- JGE (42_jump.md R128). -/
def execJge (offset : Word) (s : State) : Host.Outcome State Fault Refusal :=
  runJump .greaterOrEqual offset s

/-- JL (42_jump.md R129). -/
def execJl (offset : Word) (s : State) : Host.Outcome State Fault Refusal :=
  runJump .lessThan offset s

/-- JMP (42_jump.md R130). -/
def execJmp (offset : Word) (s : State) : Host.Outcome State Fault Refusal :=
  runJump .always offset s

end Sys2Proof.Machine
end

