-- ==== Sys2Proof/Machine/SingleOperand.lean ====
section
/-! DEFINITION. The single-operand instructions (41_single_operand.md R107 to R117). `s` is ctx0, the context right after the
instruction-word fetch; a failure leaves it (60_exceptions.md R152). -/

namespace Sys2Proof.Machine

/-- An opcode in the destination role: resolve the location, hand over, and let the layer write a result through it
(41_single_operand.md R108, R110). -/
def runDestination (o : SingleOp) (b : Bool) (dst : OperandRef) (s : State) : Host.Outcome State Fault Refusal :=
  match resolveDestination dst s with
  | .error e => s.raise e
  | .ok (loc, s1) => .next (layerResult loc (s1.handOver { op := .single o, b := b, operand := .location loc }))

/-- RRC (41_single_operand.md R111). -/
def execRrc (b : Bool) (dst : OperandRef) (s : State) : Host.Outcome State Fault Refusal :=
  runDestination .rrc b dst s

/-- SWPB (41_single_operand.md R112). -/
def execSwpb (b : Bool) (dst : OperandRef) (s : State) : Host.Outcome State Fault Refusal :=
  runDestination .swpb b dst s

/-- RRA (41_single_operand.md R113). -/
def execRra (b : Bool) (dst : OperandRef) (s : State) : Host.Outcome State Fault Refusal :=
  runDestination .rra b dst s

/-- SXT (41_single_operand.md R114). -/
def execSxt (b : Bool) (dst : OperandRef) (s : State) : Host.Outcome State Fault Refusal :=
  runDestination .sxt b dst s

/-- PUSH: the operand in the source role (41_single_operand.md R108, R115). -/
def execPush (b : Bool) (dst : OperandRef) (s : State) : Host.Outcome State Fault Refusal :=
  match resolveSource dst s with
  | .error e => s.raise e
  | .ok (v, s1) => .next (layerPush (s1.handOver { op := .single .push, b := b, operand := .value v }))

/-- CALL: the operand in the source role; its value is the target (41_single_operand.md R108, R116). -/
def execCall (b : Bool) (dst : OperandRef) (s : State) : Host.Outcome State Fault Refusal :=
  match resolveSource dst s with
  | .error e => s.raise e
  | .ok (v, s1) => .next (layerCall (s1.handOver { op := .single .call, b := b, operand := .value v }))

/-- RETI: no resolver is called, whatever the operand field says (41_single_operand.md R108, R117). -/
def execReti (b : Bool) (_dst : OperandRef) (s : State) : Host.Outcome State Fault Refusal :=
  .next (layerReti (s.handOver { op := .single .reti, b := b, operand := .nothing }))

end Sys2Proof.Machine
end

