-- ==== Sys2Proof/Machine/Dispatch.lean ====
section
/-! DEFINITION. One instruction's meaning, from ctx0 (70_reset_and_hazards.md R170). -/

namespace Sys2Proof.Machine

def exec (i : Instr) (s : State) : Host.Outcome State Fault Refusal :=
  match i with
  | .rrc b dst => Sys2Proof.Machine.execRrc b dst s
  | .swpb b dst => Sys2Proof.Machine.execSwpb b dst s
  | .rra b dst => Sys2Proof.Machine.execRra b dst s
  | .sxt b dst => Sys2Proof.Machine.execSxt b dst s
  | .push b dst => Sys2Proof.Machine.execPush b dst s
  | .call b dst => Sys2Proof.Machine.execCall b dst s
  | .reti b dst => Sys2Proof.Machine.execReti b dst s
  | .jne offset => Sys2Proof.Machine.execJne offset s
  | .jeq offset => Sys2Proof.Machine.execJeq offset s
  | .jnc offset => Sys2Proof.Machine.execJnc offset s
  | .jc offset => Sys2Proof.Machine.execJc offset s
  | .jn offset => Sys2Proof.Machine.execJn offset s
  | .jge offset => Sys2Proof.Machine.execJge offset s
  | .jl offset => Sys2Proof.Machine.execJl offset s
  | .jmp offset => Sys2Proof.Machine.execJmp offset s
  | .mov src b dst => Sys2Proof.Machine.execMov src b dst s
  | .add src b dst => Sys2Proof.Machine.execAdd src b dst s
  | .addc src b dst => Sys2Proof.Machine.execAddc src b dst s
  | .subc src b dst => Sys2Proof.Machine.execSubc src b dst s
  | .sub src b dst => Sys2Proof.Machine.execSub src b dst s
  | .cmp src b dst => Sys2Proof.Machine.execCmp src b dst s
  | .dadd src b dst => Sys2Proof.Machine.execDadd src b dst s
  | .bit src b dst => Sys2Proof.Machine.execBit src b dst s
  | .bic src b dst => Sys2Proof.Machine.execBic src b dst s
  | .bis src b dst => Sys2Proof.Machine.execBis src b dst s
  | .xor src b dst => Sys2Proof.Machine.execXor src b dst s
  | .and src b dst => Sys2Proof.Machine.execAnd src b dst s

end Sys2Proof.Machine
end

