-- ==== Sys2Proof/Machine/Fetch.lean ====
section
/-! DEFINITION. Placing an instruction where the machine fetches its next one. -/

namespace Sys2Proof.Machine

/-- Word `k` of an instruction's bits, word 0 the least significant. -/
def tableWord (nbits w k : Nat) : Word := BitVec.ofNat 16 (w % 2 ^ nbits / 2 ^ (16 * k))

/-- The instruction's three words at the pc and the two addresses after it (an instruction is at most three words:
30_encoding.md R51). -/
def State.placeInstruction (s : State) (nbits w : Nat) : State :=
  ((s.writeMem s.pc (tableWord nbits w 0)).writeMem (s.pc + 1) (tableWord nbits w 1)).writeMem (s.pc + 2) (tableWord nbits w 2)

end Sys2Proof.Machine
end

