-- ==== Sys2Proof/Machine/Step.lean ====
section
/-! DEFINITION. One instruction-processing step (70_reset_and_hazards.md R170). -/

namespace Sys2Proof.Machine

/-- Fetch, decode, resolve, hand over. A failure of the fetch leaves the state before it; a failure after it leaves ctx0
(60_exceptions.md R152, 70_reset_and_hazards.md R170). -/
def step (s : State) : Host.Outcome State Fault Refusal :=
  match s.fetchInstruction with
  | .error e => s.raise e
  | .ok (w, ctx0) =>
    match decode ctx0.params w with
    | .error u => ctx0.raise (unknownOpcodeFault u)
    | .ok i => exec i ctx0

/-- `s` with the instruction whose bits are `w` stored where `step` fetches next: at the pc. It stands for the load that the spec
leaves to the loader (70_reset_and_hazards.md R166; log entry 9). -/
def State.withFetchWord (s : State) (nbits w : Nat) : State := s.placeInstruction nbits w

end Sys2Proof.Machine
end

