-- ==== Sys2Proof/Machine/Trace.lean ====
section
/-! DEFINITION. A trace under the reference execution layer and its ends (70_reset_and_hazards.md R171, R172). -/

namespace Sys2Proof.Machine

/-- How a trace ends (70_reset_and_hazards.md R171, R172). -/
inductive TraceEnd where
  /-- The `JMP $` step was performed; this is the final context. -/
  | normal (s : State)
  /-- A step answered a fault, which is never a normal end. -/
  | abnormal (f : Fault)
  /-- A step handed over an instruction the reference layer gives no meaning. -/
  | refused (h : Option Handoff)
  /-- The fuel ran out, which is not an ending. -/
  | outOfFuel (s : State)
  deriving DecidableEq, Repr

/-- The reference layer gives a meaning to a jump (nothing handed over) and to MOV with b = 0 only
(70_reset_and_hazards.md R171). -/
def referenceMeaning (h : Option Handoff) : Bool :=
  match h with
  | none => true
  | some h => h.op == .double .mov && !h.b

/-- The word about to be fetched is `JMP $` (70_reset_and_hazards.md R172). -/
def State.atHaltWord (s : State) : Bool := s.mem.word s.pc == 0x3FFF

/-- At most `fuel` steps under the reference layer, up to the first end (70_reset_and_hazards.md R171, R172). DEDUCED (log entry
10), safe: a fault on the word 0x3FFF is an abnormal end. -/
def referenceTrace (fuel : Nat) (s : State) : TraceEnd :=
  match fuel with
  | 0 => .outOfFuel s
  | k + 1 =>
    match step s with
    | .fault f => .abnormal f
    | .refused _ => .refused none
    | .next t =>
      if s.atHaltWord then .normal t
      else if referenceMeaning t.handoff then referenceTrace k t
      else .refused t.handoff

end Sys2Proof.Machine
end

