-- ==== Sys2Proof/Safety.lean ====
section
/-! DEFINITION. What claims are stated in: the frame vocabulary, when an operand resolves, the machine's invariant, and a safe
run. -/

namespace Sys2Proof.Machine

/-! ### Frames -/

/-- Every register but the listed ones reads the same. -/
def SameRegsExcept (l : List Reg) (s t : State) : Prop := ∀ r : Reg, r ∉ l → t.readReg r = s.readReg r

/-- Every word of memory, so every byte of it, reads the same. -/
def SameMemory (s t : State) : Prop := ∀ a : Word, t.mem.word a = s.mem.word a

/-- Every word of memory but the one at `a`. -/
def SameMemoryExcept (a : Word) (s t : State) : Prop := ∀ a' : Word, a' ≠ a → t.mem.word a' = s.mem.word a'

/-- The registers a write through a location may change. -/
def Location.regs : Location → List Reg
  | .reg n => [n]
  | .mem _ => []

/-- Every word of memory but the one a write through the location stores to. -/
def SameMemoryExceptAt (loc : Location) (s t : State) : Prop :=
  match loc with
  | .reg _ => SameMemory s t
  | .mem a => SameMemoryExcept a s t

/-- The registers a source operand steps besides the pc: an IndirectIncrement operand's own (10_state.md R21). -/
def steppedRegs (op : OperandRef) : List Reg :=
  if op.mode = .indirectIncrement then [op.reg] else []

/-! ### When an operand resolves -/

/-- Nothing stops `n` words of the stream from being consumed: always so under `wrap`, and under `fault` when none of them is the
word at 0xFFFF (20_memory.md R34). -/
def StreamFits (n : Nat) (s : State) : Prop :=
  s.params.addrOverflow = .wrap ∨ s.pc.toNat + n ≤ 0xFFFF

/-- The adder's exact sum is an address (40_operand_resolver.md R83). -/
def SumFits (p : Config.Params) (base disp : Word) : Prop :=
  p.addrOverflow = .wrap ∨ (0 ≤ (base.toNat : Int) + disp.toInt ∧ (base.toNat : Int) + disp.toInt ≤ 0xFFFF)

/-- The base of Indexed mode as the state before the operand gives it: for register 0 the address of the extension word or the
one after it, by PC_INDEX_BASE (40_operand_resolver.md R87, R96). -/
def indexedBase (r : Reg) (s : State) : Word :=
  if r = 0 then (if s.params.pcIndexBase = .atExtension then s.pc else s.pc + 1) else s.readReg r

/-- No address or pc of the operand overflows: always so under `wrap`. -/
def OperandFits (op : OperandRef) (s : State) : Prop :=
  StreamFits op.extWords s ∧ (op.mode = .indexed → SumFits s.params (indexedBase op.reg s) (s.mem.word s.pc))

/-- What AddressOverflow records for an operand that does not fit: 0xFFFF where the stream overflows, which comes first, else the
exact sum (60_exceptions.md R154). -/
def overflowValue (op : OperandRef) (s : State) : Int :=
  if s.pc = 0xFFFF then 0xFFFF else ((indexedBase op.reg s).toNat : Int) + (s.mem.word s.pc).toInt

/-- The tags a destination may have (40_operand_resolver.md R82). -/
def LegalDestination (op : OperandRef) : Prop :=
  op.mode ∈ [ModeTag.direct, .indexed, .absoluteAddressing, .const0]

/-- The context a source operand leaves to the destination (40_operand_resolver.md R103). -/
def afterSource (op : OperandRef) (s : State) : State :=
  match resolveSource op s with
  | .ok (_, s1) => s1
  | .error _ => s

/-- A double-operand instruction resolves: its source fits, and its destination is legal and fits in the context the source
leaves. -/
def DoubleFits (src dst : OperandRef) (s : State) : Prop :=
  OperandFits src s ∧ LegalDestination dst ∧ OperandFits dst (afterSource src s)

/-! ### The accesses of an instruction -/

/-- The operand an instruction resolves as a source (41_single_operand.md R108, 43_double_operand.md R133). -/
def sourceOperand : Instr → Option OperandRef
  | .rrc _ _ => none
  | .swpb _ _ => none
  | .rra _ _ => none
  | .sxt _ _ => none
  | .push _ dst => some dst
  | .call _ dst => some dst
  | .reti _ _ => none
  | .jne _ => none
  | .jeq _ => none
  | .jnc _ => none
  | .jc _ => none
  | .jn _ => none
  | .jge _ => none
  | .jl _ => none
  | .jmp _ => none
  | .mov src _ _ => some src
  | .add src _ _ => some src
  | .addc src _ _ => some src
  | .subc src _ _ => some src
  | .sub src _ _ => some src
  | .cmp src _ _ => some src
  | .dadd src _ _ => some src
  | .bit src _ _ => some src
  | .bic src _ _ => some src
  | .bis src _ _ => some src
  | .xor src _ _ => some src
  | .and src _ _ => some src

/-- The operand an instruction resolves as a destination (41_single_operand.md R108, 43_double_operand.md R133). -/
def destinationOperand : Instr → Option OperandRef
  | .rrc _ dst => some dst
  | .swpb _ dst => some dst
  | .rra _ dst => some dst
  | .sxt _ dst => some dst
  | .push _ _ => none
  | .call _ _ => none
  | .reti _ _ => none
  | .jne _ => none
  | .jeq _ => none
  | .jnc _ => none
  | .jc _ => none
  | .jn _ => none
  | .jge _ => none
  | .jl _ => none
  | .jmp _ => none
  | .mov _ _ dst => some dst
  | .add _ _ dst => some dst
  | .addc _ _ dst => some dst
  | .subc _ _ dst => some dst
  | .sub _ _ dst => some dst
  | .cmp _ _ dst => some dst
  | .dadd _ _ dst => some dst
  | .bit _ _ dst => some dst
  | .bic _ _ dst => some dst
  | .bis _ _ dst => some dst
  | .xor _ _ dst => some dst
  | .and _ _ dst => some dst

/-- How many extension words the operand consumes, none for no operand (30_encoding.md R71). -/
def extWordsOf (op : Option OperandRef) : Nat :=
  match op with
  | none => 0
  | some op => op.extWords

/-- The stream fetches of an operand's `n` extension words, `n` being 0 or 1, at address `a`. -/
def extFetches (n : Nat) (a : Word) : List Event :=
  if n = 1 then [.fetch a] else []

/-- The address of a source's data read, if it makes one; `s` is the context the source is resolved in (20_memory.md R33;
40_operand_resolver.md R86 to R92). -/
def readAddress (op : OperandRef) (s : State) : Option Word :=
  match op.mode with
  | .indexed => some (indexedBase op.reg s + s.mem.word s.pc)
  | .absoluteAddressing => some (s.mem.word s.pc)
  | .indirect => if op.reg = 0 then none else some (s.readReg op.reg)
  | .indirectIncrement => if op.reg = 0 then none else some (s.readReg op.reg)
  | .direct => none
  | .const0 => none
  | .const1 => none
  | .const2 => none
  | .const4 => none
  | .const8 => none
  | .constNeg1 => none

/-- The data reads of a source, at most one. -/
def dataReads (op : Option OperandRef) (s : State) : List Event :=
  match op with
  | none => []
  | some op =>
    match readAddress op s with
    | none => []
    | some a => [.read a]

/-- The event is an instruction-stream fetch. -/
def Event.isFetch : Event → Bool
  | .fetch _ => true
  | .read _ => false

/-- The event is a data read. -/
def Event.isRead : Event → Bool
  | .fetch _ => false
  | .read _ => true

/-! ### What the execution layer may change -/

/-- The registers whose values the spec leaves to the execution layer, by what was handed over (41_single_operand.md R110,
43_double_operand.md R135, R141, R143; log entry 4). -/
def Handoff.layerRegs (h : Handoff) : List Reg :=
  match h.op, h.operand with
  | .single .push, _ => [1, 2]
  | .single .call, _ => [0, 1, 2]
  | .single .reti, _ => [0, 1, 2]
  | .double .cmp, _ => [2]
  | .double .bit, _ => [2]
  | _, .location l => 2 :: l.regs
  | _, .both _ l => 2 :: l.regs
  | _, .value _ => [2]
  | _, .nothing => [2]

/-! ### Traces -/

/-- What was handed over has a meaning in the reference layer: nothing (a jump), or MOV with b = 0
(70_reset_and_hazards.md R171). -/
def HasReferenceMeaning (h : Option Handoff) : Prop :=
  ∀ h', h = some h' → h'.op = .double .mov ∧ h'.b = false

/-- The trace from `s` comes to `s'` after `k` steps, each of which goes on, is not the `JMP $` step, and hands over nothing the
reference layer has no meaning for (70_reset_and_hazards.md R171, R172). -/
def TraceReaches (k : Nat) (s s' : State) : Prop :=
  match k with
  | 0 => s' = s
  | k + 1 =>
    ∃ t, step s = .next t ∧ s.mem.word s.pc ≠ 0x3FFF ∧ HasReferenceMeaning t.handoff ∧ TraceReaches k t s'

/-! ### The machine's invariant, and safe runs -/

/-- Memory is in its canonical form, and the stored cell of the zero register holds 0 (10_state.md R15). -/
def State.Inv (s : State) : Prop := s.mem.wf ∧ s.regs[3] = 0

/-- A step is safe when it answers a next state. -/
def SafeStep (s : State) : Prop := ∃ t, step s = .next t

/-- A run is safe when its trace under the reference layer ends normally (70_reset_and_hazards.md R172). -/
def SafeRun (fuel : Nat) (s : State) : Prop := ∃ t, referenceTrace fuel s = .normal t

end Sys2Proof.Machine
end

