-- ==== Sys2Proof/Certificates/Slice0/Obligations.lean ====
section
/-! DEFINITION. The statements about the machine, each from the rules its docstring names. Every quantifier over states ranges
over every setting of the OPEN parameters, since they stand in the state (log entry 3), and over every initial context. Where the
execution layer writes a free value (log entries 4 and 5), no statement says which. -/

open Sys2Proof Sys2Proof.Machine

/-! ### Encoding -/

/-- R73: an encoder inverts the decoder on every constructible instruction, and gives back the word of every decoded one, up to
bit 6 of a SingleOperand word under SINGLE_BW_BIT = 5, where the width flag is the high bit of the mode code. -/
def Obligations.EncodeAndDecodeAreInverse : Prop :=
  (∀ (p : Config.Params) (i : Instr), i.wellFormed p = true → decode p (encode p i) = .ok i) ∧
  (∀ (p : Config.Params) (w : Word) (i : Instr), decode p w = .ok i →
    i.wellFormed p = true ∧
    (p.singleBwBit = .six ∨ i.format ≠ .singleOperand → encode p i = w) ∧
    (p.singleBwBit = .five → i.format = .singleOperand →
      encode p i ||| 0x0040 = w ||| 0x0040 ∧
      ∃ b op, i.operands = [op] ∧ b = w.getLsbD 5 ∧ b = op.mode.highCode))

/-- 30_encoding.md section 1: the word ranges of the three formats under each reading (the counts of R50's table are not
stated). -/
def Obligations.FormatsHoldTheirWordRanges : Prop :=
  ∀ w : Word,
    (classify .msp430 w = .singleOperand ↔ 0x1000 ≤ w.toNat ∧ w.toNat ≤ 0x13FF) ∧
    (classify .msp430 w = .jump ↔ 0x2000 ≤ w.toNat ∧ w.toNat ≤ 0x3FFF) ∧
    (classify .lsbFirstLiteral w = .singleOperand ↔ 0x2000 ≤ w.toNat ∧ w.toNat ≤ 0x23FF) ∧
    (classify .lsbFirstLiteral w = .jump ↔ 0x2400 ≤ w.toNat ∧ w.toNat ≤ 0x3FFF) ∧
    (classify .msbFirstLiteral w = .singleOperand ↔ 0x1000 ≤ w.toNat ∧ w.toNat ≤ 0x13FF) ∧
    (classify .msbFirstLiteral w = .jump ↔ 0x8000 ≤ w.toNat ∧ w.toNat ≤ 0x9FFF)

/-- R150: exactly the words of its table raise UnknownOpcode, each recording its format, its opcode field's value and the whole
word; a Jump never raises it; and it is raised by decode only, before any operand is resolved, so the step leaves ctx0, and a step
that fails so has a word at its pc that decode refuses with that record. -/
def Obligations.UnknownOpcodeWordsAreTheTabledOnes : Prop :=
  (∀ (p : Config.Params) (w : Word), (∃ u, decode p w = .error u) ↔
    match p.reading with
    | .msp430 => w.toNat ≤ 0x0FFF ∨ (0x1380 ≤ w.toNat ∧ w.toNat ≤ 0x13FF) ∨ (0x1400 ≤ w.toNat ∧ w.toNat ≤ 0x1FFF)
    | .lsbFirstLiteral => w.toNat ≤ 0x1FFF ∨ (0x2380 ≤ w.toNat ∧ w.toNat ≤ 0x23FF)
    | .msbFirstLiteral => w.toNat ≤ 0x0FFF ∨ (0x1380 ≤ w.toNat ∧ w.toNat ≤ 0x13FF) ∨ (0x1400 ≤ w.toNat ∧ w.toNat ≤ 0x3FFF)) ∧
  (∀ (p : Config.Params) (w : Word) (u : UnknownOpcode), decode p w = .error u →
    u.format = classify p.reading w ∧ u.format ≠ .jump ∧ u.word = w ∧
    (u.format = .singleOperand → u.code = w.toNat / 128 % 8) ∧ (u.format = .doubleOperand → u.code = w.toNat / 4096)) ∧
  (∀ (s ctx0 : State) (w : Word) (u : UnknownOpcode), s.fetchInstruction = .ok (w, ctx0) → decode s.params w = .error u →
    step s = .fault (.raised (.unknownOpcode u.format u.code w) ctx0)) ∧
  (∀ (s c : State) (f : Format) (code : Nat) (w : Word), step s = .fault (.raised (.unknownOpcode f code w) c) →
    s.mem.word s.pc = w ∧ decode s.params w = .error ⟨f, code, w⟩) ∧
  (∀ (i : Instr) (s c : State) (f : Format) (code : Nat) (w : Word),
    exec i s ≠ .fault (.raised (.unknownOpcode f code w) c))

/-- R64: the register number alone chooses the alphabet of every operand of every decoded instruction; within a register the mode
code and the tag determine each other; codes 1 and 2 mean what R64 says. -/
def Obligations.RegisterNumberChoosesTheAlphabet : Prop :=
  (∀ (p : Config.Params) (w : Word) (i : Instr) (op : OperandRef), decode p w = .ok i → op ∈ i.operands →
    (op.reg = 3 → op.mode ∈ [ModeTag.const0, .const1, .const2, .constNeg1]) ∧
    (op.reg = 2 → op.mode ∈ [ModeTag.direct, .absoluteAddressing, .const4, .const8])) ∧
  (∀ (r r' : Reg) (c c' : BitVec 2), r = r' → modeOf r c = modeOf r' c' → c = c') ∧
  (∀ r : Reg, r ≠ 2 → r ≠ 3 → modeOf r 1 = .indexed ∧ modeOf r 2 = .indirect) ∧
  (modeOf 2 1 = .absoluteAddressing ∧ modeOf 2 2 = .const4 ∧ modeOf 3 1 = .const1 ∧ modeOf 3 2 = .const2)

/-- 95_test_vectors.md L2.2: a word of each family, and words that only one setting of a parameter reads so. -/
def Obligations.TabledWordsDecodeAsWritten : Prop :=
  decode .default 0x107F = .ok (.rrc true ⟨15, .indirectIncrement⟩) ∧
  decode .default 0x12B0 = .ok (.call false ⟨0, .indirectIncrement⟩) ∧
  decode { Config.Params.default with singleBwBit := .five } 0x12B0 = .ok (.call true ⟨0, .indirectIncrement⟩) ∧
  decode .default 0x2434 = .ok (.jeq 52) ∧
  decode .default 0x2E00 = .ok (.jc 0xFE00) ∧
  decode { Config.Params.default with reading := .lsbFirstLiteral } 0x2000 = .ok (.rrc false ⟨0, .direct⟩) ∧
  decode { Config.Params.default with reading := .msbFirstLiteral } 0x8000 = .ok (.jne 0) ∧
  decode .default 0x4392 = .ok (.mov ⟨3, .const1⟩ false ⟨2, .absoluteAddressing⟩) ∧
  decode .default 0xFFFF = .ok (.and ⟨15, .indirectIncrement⟩ true ⟨15, .indexed⟩)

/-! ### The step, the stream and the initial context -/

/-- 70_reset_and_hazards.md section 4 with 10_state.md section 3: the step fetches the instruction word by one `StreamNext()`, and
what it then does is `exec` of the decoded instruction in the context that leaves: pc past the word, one `Fetch`, all else as it
was. That nothing is handed over there is the model's choice (log entry 6), and so is the counter of free values (log entry 5). -/
def Obligations.StepRunsTheDecodedInstruction : Prop :=
  ∀ (s : State) (i : Instr), StreamFits 1 s → decode s.params (s.mem.word s.pc) = .ok i →
    ∃ ctx0, step s = exec i ctx0 ∧ ctx0.pc = s.pc + 1 ∧ ctx0.ev = s.ev ++ [.fetch s.pc] ∧ ctx0.handoff = none ∧
      SameRegsExcept [0] s ctx0 ∧ ctx0.mem = s.mem ∧ ctx0.params = s.params ∧ ctx0.freeIdx = s.freeIdx

/-- R20: every `StreamNext()` that answers advances the pc by exactly 1 modulo 2^16; under `fault` the one at 0xFFFF overflows
instead, and under `wrap` every one answers. -/
def Obligations.StreamAdvancesPcByOneWord : Prop :=
  (∀ (s t : State) (w : Word), s.streamNext = .ok (w, t) → t.pc.toNat = (s.pc.toNat + 1) % 65536) ∧
  (∀ s : State, s.params.addrOverflow = .wrap → ∃ w t, s.streamNext = .ok (w, t)) ∧
  (∀ s : State, s.params.addrOverflow = .fault → s.pc = 0xFFFF → s.streamNext = .error (.addressOverflow 0xFFFF)) ∧
  (∀ s : State, s.params.addrOverflow = .fault → s.pc ≠ 0xFFFF → ∃ w t, s.streamNext = .ok (w, t))

/-- 70_reset_and_hazards.md section 4: a fetch that overflows leaves the whole state as it was. -/
def Obligations.FetchOverflowLeavesTheState : Prop :=
  ∀ s : State, ¬ StreamFits 1 s → step s = .fault (.raised (.addressOverflow 0xFFFF) s)

/-- R83: the adder gives the exact signed sum modulo 2^16 under `wrap`, whether the displacement is read as signed or unsigned;
under `fault` it gives the sum where that is an address and the overflow with the exact sum where it is not. -/
def Obligations.EffectiveAddressIsTheSignedSum : Prop :=
  ∀ (p : Config.Params) (base disp : Word),
    (p.addrOverflow = .wrap → ∃ a, effectiveAddress p base disp = .ok a ∧
      (a.toNat : Int) = ((base.toNat : Int) + disp.toInt) % 65536 ∧ a.toNat = (base.toNat + disp.toNat) % 65536) ∧
    (p.addrOverflow = .fault → 0 ≤ (base.toNat : Int) + disp.toInt → (base.toNat : Int) + disp.toInt ≤ 0xFFFF →
      ∃ a, effectiveAddress p base disp = .ok a ∧ (a.toNat : Int) = (base.toNat : Int) + disp.toInt) ∧
    (p.addrOverflow = .fault → ¬ (0 ≤ (base.toNat : Int) + disp.toInt ∧ (base.toNat : Int) + disp.toInt ≤ 0xFFFF) →
      effectiveAddress p base disp = .error (.addressOverflow ((base.toNat : Int) + disp.toInt)))

/-- 10_state.md section 6: in every initial context x[3] is 0, no event has happened and nothing is transient, and everything else
is as INIT_CONTEXT gives it. That the context `State.reset` holds zeros elsewhere is the model's choice (log entries 1 and 2). -/
def Obligations.InitialContextsAreAsListed : Prop :=
  (∀ (p : Config.Params) (regs : Vector Word 16) (mem : Memory),
    (State.ofContext p regs mem).readReg 3 = 0 ∧ (State.ofContext p regs mem).ev = [] ∧
    (State.ofContext p regs mem).handoff = none ∧ (State.ofContext p regs mem).mem = mem ∧
    (State.ofContext p regs mem).params = p ∧
    (∀ r : Reg, r ≠ 3 → (State.ofContext p regs mem).readReg r = regs[r.val]) ∧
    (mem.wf → (State.ofContext p regs mem).Inv)) ∧
  State.reset.Inv ∧ State.reset.params = .default

/-- R15: register 3 reads 0 in every context, a write to it changes nothing, and its stored value is 0 in every initial context
and stays so over every step, whether the step goes on or faults. -/
def Obligations.ZeroRegisterIsAlwaysZero : Prop :=
  (∀ s : State, s.readReg 3 = 0) ∧
  (∀ (s : State) (v : Word), s.writeReg 3 v = s) ∧
  (∀ (p : Config.Params) (regs : Vector Word 16) (mem : Memory), (State.ofContext p regs mem).regs[3] = 0) ∧
  (∀ s t : State, s.regs[3] = 0 → step s = .next t → t.regs[3] = 0) ∧
  (∀ (s c : State) (info : FaultInfo), s.regs[3] = 0 → step s = .fault (.raised info c) → c.regs[3] = 0)

/-! ### Memory -/

/-- R101: what a write through a location does. -/
def Obligations.WriteThroughALocation : Prop :=
  (∀ (s : State) (n : Reg) (v : Word), n ≠ 3 →
    (s.writeLoc (.reg n) v).readReg n = v ∧ SameRegsExcept [n] s (s.writeLoc (.reg n) v) ∧
    (s.writeLoc (.reg n) v).mem = s.mem) ∧
  (∀ (s : State) (v : Word), s.writeLoc (.reg 3) v = s) ∧
  (∀ (s : State) (a v : Word), (s.writeLoc (.mem a) v).mem.word a = v ∧ SameMemoryExcept a s (s.writeLoc (.mem a) v) ∧
    SameRegsExcept [] s (s.writeLoc (.mem a) v)) ∧
  (∀ (s : State) (loc : Location) (v : Word), (s.writeLoc loc v).ev = s.ev ∧ (s.writeLoc loc v).params = s.params)

/-- R45: a word the execution layer has written is what every later `StreamNext()` at its address gives, as an instruction word
and as an extension word, until the word is written again, whatever else has happened between. -/
def Obligations.FetchSeesTheLastWrite : Prop :=
  ∀ (s t : State) (a v : Word), t.pc = a → t.mem.word a = (s.writeLoc (.mem a) v).mem.word a → StreamFits 1 t →
    (∃ u, t.fetchInstruction = .ok (v, u) ∧ u.pc = a + 1) ∧ (∃ u, t.streamNext = .ok (v, u) ∧ u.pc = a + 1)

/-- 20_memory.md section 1: no operation of the block writes memory. -/
def Obligations.TheBlockNeverWritesMemory : Prop :=
  (∀ (op : OperandRef) (s t : State) (v : Word), resolveSource op s = .ok (v, t) → t.mem = s.mem) ∧
  (∀ (op : OperandRef) (s t : State) (loc : Location), resolveDestination op s = .ok (loc, t) → t.mem = s.mem) ∧
  (∀ (s t : State) (w : Word), s.streamNext = .ok (w, t) → t.mem = s.mem) ∧
  (∀ (s t : State) (c : Cond) (offset : Word), exec (mkJump c offset) s = .next t → t.mem = s.mem)

/-! ### Operands -/

/-- R84: a Direct source is the register's current value, and nothing changes. -/
def Obligations.DirectSourceReadsItsRegister : Prop :=
  ∀ (r : Reg) (s : State), r ≠ 3 → resolveSource ⟨r, .direct⟩ s = .ok (s.readReg r, s)

/-- R86 and R87: an Indexed source consumes one stream word and reads memory at base plus displacement; the base of register 0 is
chosen by PC_INDEX_BASE; it overflows, under `fault` only, where the stream does, recording 0xFFFF, or else where the sum does,
recording the exact sum. -/
def Obligations.IndexedSourceReadsAtTheSum : Prop :=
  ∀ (r : Reg) (s : State), r ≠ 2 → r ≠ 3 →
    (OperandFits ⟨r, .indexed⟩ s → ∀ a : Word,
      a = (if r = 0 then (if s.params.pcIndexBase = .atExtension then s.pc else s.pc + 1) else s.readReg r) + s.mem.word s.pc →
      ∃ t, resolveSource ⟨r, .indexed⟩ s = .ok (s.mem.word a, t) ∧ t.pc = s.pc + 1 ∧
        t.ev = s.ev ++ [.fetch s.pc, .read a] ∧ SameRegsExcept [0] s t ∧ t.mem = s.mem ∧ t.handoff = s.handoff) ∧
    (¬ OperandFits ⟨r, .indexed⟩ s → s.params.addrOverflow = .fault) ∧
    (¬ StreamFits 1 s → resolveSource ⟨r, .indexed⟩ s = .error (.addressOverflow 0xFFFF)) ∧
    (StreamFits 1 s → ¬ SumFits s.params (indexedBase r s) (s.mem.word s.pc) →
      resolveSource ⟨r, .indexed⟩ s =
        .error (.addressOverflow (((indexedBase r s).toNat : Int) + (s.mem.word s.pc).toInt)))

/-- R88 and R92: an Indirect source reads memory at the register's value and changes no register; an absolute source consumes one
stream word, the address, and reads memory there. -/
def Obligations.IndirectAndAbsoluteSourcesReadMemory : Prop :=
  (∀ (r : Reg) (s : State), r ≠ 0 → r ≠ 2 → r ≠ 3 →
    ∃ t, resolveSource ⟨r, .indirect⟩ s = .ok (s.mem.word (s.readReg r), t) ∧ SameRegsExcept [] s t ∧
      t.ev = s.ev ++ [.read (s.readReg r)] ∧ t.mem = s.mem) ∧
  (∀ s : State, StreamFits 1 s →
    ∃ t, resolveSource ⟨2, .absoluteAddressing⟩ s = .ok (s.mem.word (s.mem.word s.pc), t) ∧ t.pc = s.pc + 1 ∧
      SameRegsExcept [0] s t ∧ t.ev = s.ev ++ [.fetch s.pc, .read (s.mem.word s.pc)] ∧ t.mem = s.mem) ∧
  (∀ s : State, ¬ StreamFits 1 s → resolveSource ⟨2, .absoluteAddressing⟩ s = .error (.addressOverflow 0xFFFF))

/-- R89 and R91: Indirect and IndirectIncrement on the PC are the immediate: one stream word is the value, the pc advances by
exactly 1, and no data read is recorded. -/
def Obligations.PcIndirectIsTheImmediate : Prop :=
  ∀ (m : ModeTag) (s : State), m = .indirect ∨ m = .indirectIncrement →
    (StreamFits 1 s → ∃ t, resolveSource ⟨0, m⟩ s = .ok (s.mem.word s.pc, t) ∧ t.pc = s.pc + 1 ∧
      SameRegsExcept [0] s t ∧ t.ev = s.ev ++ [.fetch s.pc] ∧ t.mem = s.mem) ∧
    (¬ StreamFits 1 s → resolveSource ⟨0, m⟩ s = .error (.addressOverflow 0xFFFF))

/-- R90: an IndirectIncrement source reads memory at the register's value before it steps the register by 1, modulo 2^16 under
either ADDR_OVERFLOW setting; it takes no width flag, and SP steps by 1 as any other register does. -/
def Obligations.AutoincrementStepsAfterTheRead : Prop :=
  ∀ (r : Reg) (s : State), r ≠ 0 → r ≠ 2 → r ≠ 3 →
    ∃ t, resolveSource ⟨r, .indirectIncrement⟩ s = .ok (s.mem.word (s.readReg r), t) ∧
      (t.readReg r).toNat = ((s.readReg r).toNat + 1) % 65536 ∧ SameRegsExcept [r] s t ∧
      t.ev = s.ev ++ [.read (s.readReg r)] ∧ t.mem = s.mem

/-- R93 and R94: the six constants, with the context unchanged. -/
def Obligations.ConstantSourcesChangeNothing : Prop :=
  ∀ s : State,
    resolveSource ⟨2, .const4⟩ s = .ok (4, s) ∧ resolveSource ⟨2, .const8⟩ s = .ok (8, s) ∧
    resolveSource ⟨3, .const0⟩ s = .ok (0, s) ∧ resolveSource ⟨3, .const1⟩ s = .ok (1, s) ∧
    resolveSource ⟨3, .const2⟩ s = .ok (2, s) ∧ resolveSource ⟨3, .constNeg1⟩ s = .ok (0xFFFF, s)

/-- R95 and R98: a Direct destination is its register, Const0 on register 3 is the zero register, where a write vanishes; neither
changes the context. -/
def Obligations.RegisterDestinationsChangeNothing : Prop :=
  (∀ (r : Reg) (s : State), r ≠ 3 → resolveDestination ⟨r, .direct⟩ s = .ok (.reg r, s)) ∧
  (∀ s : State, resolveDestination ⟨3, .const0⟩ s = .ok (.reg 3, s)) ∧
  (∀ (s : State) (v : Word), s.writeLoc (.reg 3) v = s)

/-- R96 and R97: an Indexed or absolute destination consumes one stream word and gives the address; it reads nothing else. It
overflows as the source does. -/
def Obligations.MemoryDestinationsGiveTheAddress : Prop :=
  (∀ (r : Reg) (s : State), r ≠ 2 → r ≠ 3 →
    (OperandFits ⟨r, .indexed⟩ s →
      ∃ t, resolveDestination ⟨r, .indexed⟩ s = .ok (.mem
          ((if r = 0 then (if s.params.pcIndexBase = .atExtension then s.pc else s.pc + 1) else s.readReg r)
            + s.mem.word s.pc), t) ∧
        t.pc = s.pc + 1 ∧ SameRegsExcept [0] s t ∧ t.ev = s.ev ++ [.fetch s.pc] ∧ t.mem = s.mem) ∧
    (¬ OperandFits ⟨r, .indexed⟩ s → s.params.addrOverflow = .fault) ∧
    (¬ StreamFits 1 s → resolveDestination ⟨r, .indexed⟩ s = .error (.addressOverflow 0xFFFF)) ∧
    (StreamFits 1 s → ¬ SumFits s.params (indexedBase r s) (s.mem.word s.pc) →
      resolveDestination ⟨r, .indexed⟩ s =
        .error (.addressOverflow (((indexedBase r s).toNat : Int) + (s.mem.word s.pc).toInt)))) ∧
  (∀ s : State, StreamFits 1 s →
    ∃ t, resolveDestination ⟨2, .absoluteAddressing⟩ s = .ok (.mem (s.mem.word s.pc), t) ∧ t.pc = s.pc + 1 ∧
      SameRegsExcept [0] s t ∧ t.ev = s.ev ++ [.fetch s.pc] ∧ t.mem = s.mem) ∧
  (∀ s : State, ¬ StreamFits 1 s → resolveDestination ⟨2, .absoluteAddressing⟩ s = .error (.addressOverflow 0xFFFF))

/-- R99: a source-only tag as a destination fails with its register and tag, on any register and in any context, so before any
side effect; decoding accepts it: in a double-operand word as {3, Const1} only, in a single-operand word each of the seven. -/
def Obligations.SourceOnlyTagsAreNoDestination : Prop :=
  (∀ (r : Reg) (m : ModeTag) (s : State),
    m ∈ [ModeTag.indirect, .indirectIncrement, .const1, .const2, .const4, .const8, .constNeg1] →
    resolveDestination ⟨r, m⟩ s = .error (.invalidDestinationMode r m)) ∧
  (∀ (p : Config.Params) (w : Word) (i : Instr) (src : OperandRef) (r : Reg) (m : ModeTag),
    decode p w = .ok i → i.operands = [src, ⟨r, m⟩] →
    m ∈ [ModeTag.indirect, .indirectIncrement, .const1, .const2, .const4, .const8, .constNeg1] → r = 3 ∧ m = .const1) ∧
  decode .default 0x4483 = .ok (.mov ⟨4, .direct⟩ false ⟨3, .const1⟩) ∧
  (∀ m ∈ [ModeTag.indirect, .indirectIncrement, .const1, .const2, .const4, .const8, .constNeg1],
    ∃ (w : Word) (r : Reg), decode .default w = .ok (.rrc false ⟨r, m⟩))

/-- R100: a destination makes no data read, and records at most one fetch. -/
def Obligations.DestinationsMakeNoDataRead : Prop :=
  ∀ (op : OperandRef) (s t : State) (loc : Location), resolveDestination op s = .ok (loc, t) →
    t.mem = s.mem ∧ (t.ev = s.ev ∨ t.ev = s.ev ++ [.fetch s.pc])

/-- 30_encoding.md section 7: an operand moves the pc by exactly its number of extension words, the same as a source and as a
destination. -/
def Obligations.OperandsConsumeTheirExtensionWords : Prop :=
  (∀ (op : OperandRef) (s t : State) (v : Word), resolveSource op s = .ok (v, t) →
    t.pc = s.pc + BitVec.ofNat 16 op.extWords) ∧
  (∀ (op : OperandRef) (s t : State) (loc : Location), resolveDestination op s = .ok (loc, t) →
    t.pc = s.pc + BitVec.ofNat 16 op.extWords) ∧
  (∀ op : OperandRef, op.inAlphabet = true → op.extWords =
    if op.mode = .indexed ∨ op.mode = .absoluteAddressing ∨ (op.reg = 0 ∧ (op.mode = .indirect ∨ op.mode = .indirectIncrement))
    then 1 else 0)

/-- R21: the block writes the pc, and the register of an IndirectIncrement source by one step, and no other register; it never
writes register 2 or 3. -/
def Obligations.ResolutionWritesPcAndSteppedRegisterOnly : Prop :=
  (∀ (op : OperandRef) (s t : State) (v : Word), op.inAlphabet = true → resolveSource op s = .ok (v, t) →
    SameRegsExcept (0 :: steppedRegs op) s t ∧ t.readReg 2 = s.readReg 2 ∧ t.regs[3] = s.regs[3] ∧
    (op.mode = .indirectIncrement → op.reg ≠ 0 → t.readReg op.reg = s.readReg op.reg + 1 ∧ op.reg ≠ 2 ∧ op.reg ≠ 3)) ∧
  (∀ (op : OperandRef) (s t : State) (loc : Location), resolveDestination op s = .ok (loc, t) →
    SameRegsExcept [0] s t ∧ t.regs[3] = s.regs[3])

/-- 20_memory.md section 3 and 40_operand_resolver.md section 4, with the reference layer (70_reset_and_hazards.md section 4): a
destination on the register its source steps sees the stepped value, for all twelve opcodes: the location handed over (log entry 6)
is at the new value plus the displacement, the value is what the old value pointed at, and MOV @Rn+, X(Rn) stores it there. That
the step goes on past the hand-over and performs the reference layer's write is the model's choice (log entry 4). -/
def Obligations.DestinationSeesTheSteppedRegister : Prop :=
  ∀ (r : Reg) (b : Bool) (i : Instr) (o : DoubleOp) (s : State), r ≠ 0 → r ≠ 2 → r ≠ 3 → StreamFits 1 s →
    SumFits s.params (s.readReg r + 1) (s.mem.word s.pc) →
    i = mkDouble o ⟨r, .indirectIncrement⟩ b ⟨r, .indexed⟩ →
    ∃ t, exec i s = .next t ∧
      t.handoff = some ⟨.double o, b,
        .both (s.mem.word (s.readReg r)) (.mem (s.readReg r + 1 + s.mem.word s.pc))⟩ ∧
      (o = .mov → b = false → t.readReg r = s.readReg r + 1 ∧
        t.mem.word (s.readReg r + 1 + s.mem.word s.pc) = s.mem.word (s.readReg r) ∧
        SameMemoryExcept (s.readReg r + 1 + s.mem.word s.pc) s t)

/-! ### Conditions and jumps -/

/-- R118: the eight conditions with their codes, over C, Z, N and V, and that nothing else of the status word is read. -/
def Obligations.ConditionsReadFourFlags : Prop :=
  (condTable 0 = .notEqual ∧ condTable 1 = .equal ∧ condTable 2 = .lower ∧ condTable 3 = .carrySet ∧
    condTable 4 = .negative ∧ condTable 5 = .greaterOrEqual ∧ condTable 6 = .lessThan ∧ condTable 7 = .always) ∧
  (∀ s : Word,
    (evaluateCondition .notEqual s = true ↔ s.getLsbD 1 = false) ∧ (evaluateCondition .equal s = true ↔ s.getLsbD 1 = true) ∧
    (evaluateCondition .lower s = true ↔ s.getLsbD 0 = false) ∧ (evaluateCondition .carrySet s = true ↔ s.getLsbD 0 = true) ∧
    (evaluateCondition .negative s = true ↔ s.getLsbD 2 = true) ∧
    (evaluateCondition .greaterOrEqual s = true ↔ s.getLsbD 8 = s.getLsbD 2) ∧
    (evaluateCondition .lessThan s = true ↔ s.getLsbD 8 ≠ s.getLsbD 2) ∧ evaluateCondition .always s = true) ∧
  (∀ (c : Cond) (s s' : Word), s &&& 0x0107 = s' &&& 0x0107 → evaluateCondition c s = evaluateCondition c s')

/-- R119: the three pairs of complements. -/
def Obligations.ConditionsComeInComplements : Prop :=
  ∀ s : Word,
    evaluateCondition .greaterOrEqual s = !evaluateCondition .lessThan s ∧
    evaluateCondition .equal s = !evaluateCondition .notEqual s ∧
    evaluateCondition .carrySet s = !evaluateCondition .lower s

/-- 42_jump.md sections 2 and 3, for the eight jumps: an untaken jump changes nothing; a taken one sets the pc to pc plus offset
and changes nothing else; where that sum does not fit it fails and leaves the context. -/
def Obligations.JumpsSteerThePc : Prop :=
  ∀ (offset : Word) (i : Instr) (c : Cond) (s : State),
    (i, c) ∈ [(Instr.jne offset, Cond.notEqual), (.jeq offset, .equal), (.jnc offset, .lower), (.jc offset, .carrySet),
      (.jn offset, .negative), (.jge offset, .greaterOrEqual), (.jl offset, .lessThan), (.jmp offset, .always)] →
    (evaluateCondition c s.status = false → exec i s = .next s) ∧
    (evaluateCondition c s.status = true → SumFits s.params s.pc offset →
      ∃ t, exec i s = .next t ∧ t.pc = s.pc + offset ∧ SameRegsExcept [0] s t ∧ SameMemory s t ∧ t.ev = s.ev ∧
        t.handoff = s.handoff ∧ t.params = s.params ∧ t.freeIdx = s.freeIdx) ∧
    (evaluateCondition c s.status = true → ¬ SumFits s.params s.pc offset →
      exec i s = .fault (.raised (.addressOverflow ((s.pc.toNat : Int) + offset.toInt)) s))

/-- R120: a step at A whose word is a Jump goes to A + 1 + sext_10(w[9:0]) when its condition holds of x[2], and to A + 1 when it
does not, in word addresses. -/
def Obligations.JumpWordsTargetNextPlusOffset : Prop :=
  ∀ (s : State) (w : Word), s.mem.word s.pc = w → classify s.params.reading w = .jump → StreamFits 1 s →
    (evaluateCondition (condTable (w.extractLsb' 10 3)) s.status = false →
      ∃ t, step s = .next t ∧ t.pc = s.pc + 1 ∧ SameRegsExcept [0] s t) ∧
    (evaluateCondition (condTable (w.extractLsb' 10 3)) s.status = true →
      SumFits s.params (s.pc + 1) ((w.extractLsb' 0 10).signExtend 16) →
      ∃ t, step s = .next t ∧ t.pc = s.pc + 1 + (w.extractLsb' 0 10).signExtend 16 ∧ SameRegsExcept [0] s t) ∧
    (evaluateCondition (condTable (w.extractLsb' 10 3)) s.status = true →
      ¬ SumFits s.params (s.pc + 1) ((w.extractLsb' 0 10).signExtend 16) →
      ∃ ctx0, step s = .fault (.raised (.addressOverflow
        (((s.pc + 1).toNat : Int) + ((w.extractLsb' 0 10).signExtend 16).toInt)) ctx0)) ∧
    (w = 0x3FFF → ∀ t, step s = .next t → t.pc = s.pc)

/-- 10_state.md section 4: GIE, CPUOFF, OSCOFF, SCG0, SCG1 and bits 15:9 never steer a jump: two status words with the same C, Z, N
and V send every jump to the same pc, or fail alike. -/
def Obligations.OtherStatusBitsNeverSteerAJump : Prop :=
  ∀ (c : Cond) (offset : Word) (s : State) (v : Word), v &&& 0x0107 = s.status &&& 0x0107 →
    (∀ t, exec (mkJump c offset) s = .next t → exec (mkJump c offset) (s.writeReg 2 v) = .next (t.writeReg 2 v)) ∧
    (∀ info ctx, exec (mkJump c offset) s = .fault (.raised info ctx) →
      exec (mkJump c offset) (s.writeReg 2 v) = .fault (.raised info (s.writeReg 2 v)))

/-- 42_jump.md section 3: the word 0x3FFF jumps to itself, and a turn of that loop adds one fetch event and changes nothing else
but that nothing is handed over (log entry 6). -/
def Obligations.JumpToSelfOnlyFetches : Prop :=
  ∀ s : State, s.params.reading ≠ .msbFirstLiteral → s.mem.word s.pc = 0x3FFF → StreamFits 1 s →
    ∃ t, step s = .next t ∧ SameRegsExcept [] s t ∧ t.mem = s.mem ∧ t.ev = s.ev ++ [.fetch s.pc] ∧ t.handoff = none ∧
      t.params = s.params ∧ t.freeIdx = s.freeIdx

/-! ### Double-operand instructions -/

/-- 43_double_operand.md R136 with the reference layer (70_reset_and_hazards.md section 4): MOV with b = 0 hands over its source
value and its location and writes the value there (that the step performs the reference layer's write is the model's choice: log
entry 4); no flag changes but by a write to register 2 itself, and a write to register 3 vanishes. -/
def Obligations.MovWordWritesItsSource : Prop :=
  ∀ (src dst : OperandRef) (s : State), DoubleFits src dst s →
    ∃ v loc s1 s2 t, resolveSource src s = .ok (v, s1) ∧ resolveDestination dst s1 = .ok (loc, s2) ∧
      exec (.mov src false dst) s = .next t ∧
      t.handoff = some ⟨.double .mov, false, .both v loc⟩ ∧
      (∀ n, loc = .reg n → n ≠ 3 → t.readReg n = v) ∧ (∀ a, loc = .mem a → t.mem.word a = v) ∧
      SameRegsExcept loc.regs s2 t ∧ SameRegsExcept (0 :: steppedRegs src ++ loc.regs) s t ∧ SameMemoryExceptAt loc s t ∧
      t.ev = s2.ev ∧ t.params = s.params ∧ t.freeIdx = s.freeIdx

/-- 43_double_operand.md sections 1 and 2: MOV with b = 1 and the nine opcodes whose result the execution layer writes hand over
the opcode, b, the source value and the location, and complete; the layer may change the location and the status word (which
values it writes there is free: log entries 4 and 5), and nothing else. -/
def Obligations.ResultWritingInstructionsComplete : Prop :=
  ∀ (src dst : OperandRef) (b : Bool) (i : Instr) (o : DoubleOp) (s : State),
    (i, o) ∈ [(Instr.add src b dst, DoubleOp.add), (.addc src b dst, .addc), (.subc src b dst, .subc), (.sub src b dst, .sub),
      (.dadd src b dst, .dadd), (.bic src b dst, .bic), (.bis src b dst, .bis), (.xor src b dst, .xor), (.and src b dst, .and)]
      ∨ (i = .mov src b dst ∧ o = .mov ∧ b = true) →
    DoubleFits src dst s →
    ∃ v loc s1 s2 t, resolveSource src s = .ok (v, s1) ∧ resolveDestination dst s1 = .ok (loc, s2) ∧
      exec i s = .next t ∧ t.handoff = some ⟨.double o, b, .both v loc⟩ ∧
      SameRegsExcept (2 :: loc.regs) s2 t ∧ SameRegsExcept (0 :: steppedRegs src ++ 2 :: loc.regs) s t ∧
      SameMemoryExceptAt loc s t ∧ t.ev = s2.ev ∧ t.params = s.params

/-- 43_double_operand.md R141 and R143: CMP and BIT hand over their source value and their location, which is only read: they
complete, all of memory is unchanged, and of the registers only the pc, the source's stepped register and the status word (whose
flags are free: log entry 5) may change. -/
def Obligations.ComparingInstructionsStoreNothing : Prop :=
  ∀ (src dst : OperandRef) (b : Bool) (i : Instr) (o : DoubleOp) (s : State),
    (i, o) ∈ [(Instr.cmp src b dst, DoubleOp.cmp), (.bit src b dst, .bit)] →
    DoubleFits src dst s →
    ∃ v loc s1 s2 t, resolveSource src s = .ok (v, s1) ∧ resolveDestination dst s1 = .ok (loc, s2) ∧
      exec i s = .next t ∧ t.handoff = some ⟨.double o, b, .both v loc⟩ ∧
      SameRegsExcept [2] s2 t ∧ SameRegsExcept (0 :: steppedRegs src ++ [2]) s t ∧ SameMemory s t ∧ t.ev = s2.ev ∧
      t.params = s.params

/-- 43_double_operand.md section 1, 60_exceptions.md section 2: for all twelve opcodes a destination with a source-only tag, in
this format {3, Const1}, fails once the source has resolved, and everything the source did is undone. -/
def Obligations.DoubleDestinationFailureUndoesTheSource : Prop :=
  ∀ (src dst : OperandRef) (b : Bool) (i : Instr) (s : State),
    i ∈ [Instr.mov src b dst, .add src b dst, .addc src b dst, .subc src b dst, .sub src b dst, .cmp src b dst,
      .dadd src b dst, .bit src b dst, .bic src b dst, .bis src b dst, .xor src b dst, .and src b dst] →
    OperandFits src s → ¬ LegalDestination dst →
      exec i s = .fault (.raised (.invalidDestinationMode dst.reg dst.mode) s) ∧
      (dst.inOneBitAlphabet = true → dst = ⟨3, .const1⟩)

/-- 60_exceptions.md section 4: one failure, the first in the fixed order: a source that overflows hides a bad destination; a
destination that overflows fails after the source; the value recorded is the overflowing operand's own (60_exceptions.md section 1); the whole
instruction is undone either way. -/
def Obligations.SourceOverflowComesBeforeTheDestination : Prop :=
  ∀ (src dst : OperandRef) (b : Bool) (i : Instr) (s : State),
    i ∈ [Instr.mov src b dst, .add src b dst, .addc src b dst, .subc src b dst, .sub src b dst, .cmp src b dst,
      .dadd src b dst, .bit src b dst, .bic src b dst, .bis src b dst, .xor src b dst, .and src b dst] →
    (¬ OperandFits src s → s.params.addrOverflow = .fault ∧
      exec i s = .fault (.raised (.addressOverflow (overflowValue src s)) s)) ∧
    (OperandFits src s → LegalDestination dst → ¬ OperandFits dst (afterSource src s) → s.params.addrOverflow = .fault ∧
      exec i s = .fault (.raised (.addressOverflow (overflowValue dst (afterSource src s))) s))

/-! ### Single-operand instructions -/

/-- 41_single_operand.md sections 1 and 2: RRC, SWPB, RRA and SXT hand over the location and complete; the layer may change the
location and the status word (free values: log entries 4 and 5), and nothing else. -/
def Obligations.DestinationRoleInstructionsComplete : Prop :=
  ∀ (dst : OperandRef) (b : Bool) (i : Instr) (o : SingleOp) (s : State),
    (i, o) ∈ [(Instr.rrc b dst, SingleOp.rrc), (.swpb b dst, .swpb), (.rra b dst, .rra), (.sxt b dst, .sxt)] →
    LegalDestination dst → OperandFits dst s →
    ∃ loc s1 t, resolveDestination dst s = .ok (loc, s1) ∧ exec i s = .next t ∧
      t.handoff = some ⟨.single o, b, .location loc⟩ ∧
      SameRegsExcept (2 :: loc.regs) s1 t ∧ SameRegsExcept (0 :: 2 :: loc.regs) s t ∧ SameMemoryExceptAt loc s t ∧
      t.ev = s1.ev ∧ t.params = s.params

/-- 41_single_operand.md section 1: where those four fail: on every source-only tag, and, under `fault` only, where the operand
overflows, recording its own value (60_exceptions.md section 1); the context is left as it was. -/
def Obligations.DestinationRoleInstructionsFail : Prop :=
  ∀ (dst : OperandRef) (b : Bool) (i : Instr) (s : State),
    i ∈ [Instr.rrc b dst, .swpb b dst, .rra b dst, .sxt b dst] →
    (¬ LegalDestination dst → exec i s = .fault (.raised (.invalidDestinationMode dst.reg dst.mode) s)) ∧
    (LegalDestination dst → ¬ OperandFits dst s → s.params.addrOverflow = .fault ∧
      exec i s = .fault (.raised (.addressOverflow (overflowValue dst s)) s))

/-- 41_single_operand.md R115 with section 1: PUSH hands over its operand's value, resolved as a source, and completes; the layer
changes the stack pointer and the status word and stores one word, at the address it chooses (free values: log entries 4 and 5):
every other register but the pc and the operand's stepped one is unchanged. -/
def Obligations.PushHandsOverItsValue : Prop :=
  ∀ (dst : OperandRef) (b : Bool) (s : State), OperandFits dst s →
    ∃ v s1 t, resolveSource dst s = .ok (v, s1) ∧ exec (.push b dst) s = .next t ∧
      t.handoff = some ⟨.single .push, b, .value v⟩ ∧
      SameRegsExcept [1, 2] s1 t ∧ SameRegsExcept (0 :: steppedRegs dst ++ [1, 2]) s t ∧
      SameMemoryExcept (s.freeWord 1) s t ∧ t.ev = s1.ev ∧ t.params = s.params

/-- 41_single_operand.md R116 with section 1: CALL hands over its operand's value, resolved as a source, and completes; the layer
changes the pc, the stack pointer and the status word and stores one word, at the address it chooses (free values: log entries 4
and 5). -/
def Obligations.CallHandsOverItsTarget : Prop :=
  ∀ (dst : OperandRef) (b : Bool) (s : State), OperandFits dst s →
    ∃ v s1 t, resolveSource dst s = .ok (v, s1) ∧ exec (.call b dst) s = .next t ∧
      t.handoff = some ⟨.single .call, b, .value v⟩ ∧
      SameRegsExcept [0, 1, 2] s1 t ∧ SameRegsExcept (0 :: steppedRegs dst ++ [0, 1, 2]) s t ∧
      SameMemoryExcept (s.freeWord 1) s t ∧ t.ev = s1.ev ∧ t.params = s.params

/-- 41_single_operand.md section 1: where PUSH and CALL fail: exactly where the operand overflows, under `fault` only, recording
its own value (60_exceptions.md section 1). -/
def Obligations.PushAndCallFailOnOverflowOnly : Prop :=
  ∀ (dst : OperandRef) (b : Bool) (i : Instr) (s : State), i ∈ [Instr.push b dst, .call b dst] →
    (¬ OperandFits dst s → s.params.addrOverflow = .fault ∧
      exec i s = .fault (.raised (.addressOverflow (overflowValue dst s)) s)) ∧
    (∀ f, exec i s = .fault f → ¬ OperandFits dst s)

/-- 41_single_operand.md section 2: RETI resolves no operand, whatever its field names, so it consumes no extension word and records
no event; it hands over no operand and completes; all of memory is unchanged (the model's reading: log entry 4), and of the
registers only the stack pointer and the status word (free values: log entries 4 and 5) and, under the setting in which the layer
changes it, the pc (log entry 11) may change. -/
def Obligations.RetiResolvesNoOperand : Prop :=
  ∀ (dst : OperandRef) (b : Bool) (s : State),
    ∃ t, exec (.reti b dst) s = .next t ∧ t.handoff = some ⟨.single .reti, b, .nothing⟩ ∧ t.ev = s.ev ∧
      SameRegsExcept [0, 1, 2] s t ∧ (s.params.retiPc = .followingWord → t.pc = s.pc) ∧ SameMemory s t ∧
      t.params = s.params

/-- 20_memory.md section 2: the width flag changes nothing the block does: with b = 0 and with b = 1 an instruction hands over the
same operand, with the same events and the same pc and stepped register (every register but those the layer may change: log entry
4), or fails alike. -/
def Obligations.WidthFlagChangesNoResolution : Prop :=
  ∀ (src dst : OperandRef) (i : Bool → Instr) (s : State),
    i ∈ [fun b => Instr.rrc b dst, fun b => Instr.swpb b dst, fun b => Instr.rra b dst, fun b => Instr.sxt b dst,
      fun b => Instr.push b dst, fun b => Instr.call b dst, fun b => Instr.reti b dst,
      fun b => Instr.mov src b dst, fun b => Instr.add src b dst, fun b => Instr.addc src b dst,
      fun b => Instr.subc src b dst, fun b => Instr.sub src b dst, fun b => Instr.cmp src b dst,
      fun b => Instr.dadd src b dst, fun b => Instr.bit src b dst, fun b => Instr.bic src b dst,
      fun b => Instr.bis src b dst, fun b => Instr.xor src b dst, fun b => Instr.and src b dst] →
    (∀ t, exec (i false) s = .next t → ∃ t' h, exec (i true) s = .next t' ∧ t'.ev = t.ev ∧
      t.handoff = some h ∧ t'.handoff = some { h with b := true } ∧ SameRegsExcept h.layerRegs t t') ∧
    (∀ f, exec (i false) s = .fault f ↔ exec (i true) s = .fault f)

/-! ### The whole machine -/

/-- R42: a step that goes on made exactly its accesses, in the fixed order: the instruction word, the source's extension word, the
source's data read, the destination's extension word, each only if the operand has one; so at most three fetches and one read. -/
def Obligations.AccessesComeInTheFixedOrder : Prop :=
  (∀ (s t : State) (i : Instr), decode s.params (s.mem.word s.pc) = .ok i → step s = .next t →
    t.ev = s.ev ++ .fetch s.pc ::
      (extFetches (extWordsOf (sourceOperand i)) (s.pc + 1) ++ dataReads (sourceOperand i) s.afterStream ++
        extFetches (extWordsOf (destinationOperand i)) (s.pc + 1 + BitVec.ofNat 16 (extWordsOf (sourceOperand i))))) ∧
  (∀ s t : State, step s = .next t →
    ∃ l : List Event, t.ev = s.ev ++ l ∧ l.countP Event.isFetch ≤ 3 ∧ l.countP Event.isRead ≤ 1)

/-- The invariant of the model: canonical memory (log entry 2) and the zero register's stored cell (10_state.md R15), kept by every
step that goes on and by every failure, with the parameters fixed (log entry 3). -/
def Obligations.EveryStepKeepsTheInvariant : Prop :=
  (∀ s t : State, s.Inv → step s = .next t → t.Inv ∧ t.params = s.params) ∧
  (∀ (s c : State) (info : FaultInfo), s.Inv → step s = .fault (.raised info c) → c.Inv ∧ c.params = s.params)

/-- 60_exceptions.md sections 2 and 5: a failure is precise. It leaves either the untouched state, when the fetch itself overflows,
or ctx0: the pc one past the instruction's address, one fetch recorded, and nothing else of the instruction (the hand-over of the
instruction before is cleared by the fetch: log entry 6). -/
def Obligations.FailuresLeaveNoHalfDoneInstruction : Prop :=
  ∀ (s c : State) (info : FaultInfo), step s = .fault (.raised info c) →
    (info = .addressOverflow 0xFFFF ∧ c = s ∧ s.params.addrOverflow = .fault ∧ s.pc = 0xFFFF) ∨
    (c.pc = s.pc + 1 ∧ c.faultingAddress = s.pc ∧ c.ev = s.ev ++ [.fetch s.pc] ∧ c.handoff = none ∧
      SameRegsExcept [0] s c ∧ c.mem = s.mem ∧ c.params = s.params ∧ c.freeIdx = s.freeIdx)

/-- 60_exceptions.md section 1: a step answers a next state or one of the spec's failures, never a refusal; under `wrap` the
failures are UnknownOpcode and InvalidDestinationMode only. -/
def Obligations.StepsGoOnOrFailByTheTaxonomy : Prop :=
  ∀ s : State,
    ((∃ t, step s = .next t) ∨ ∃ info c, step s = .fault (.raised info c)) ∧
    (s.params.addrOverflow = .wrap → ∀ info c, step s = .fault (.raised info c) → info.code = 1 ∨ info.code = 2)

/-- R153: InvalidDestinationMode arises, at resolution and not at decode and recording the operand's register and tag, for a
double-operand instruction exactly at {3, Const1} (once its source has resolved), and for RRC, SWPB, RRA and SXT exactly at an
illegal tag; never for PUSH, CALL, RETI or a jump. -/
def Obligations.InvalidDestinationArisesInTwoFamilies : Prop :=
  (∀ (p : Config.Params) (i : Instr) (s c : State) (r : Reg) (m : ModeTag), i.wellFormed p = true →
    exec i s = .fault (.raised (.invalidDestinationMode r m) c) →
    (i.format = .doubleOperand ∧ r = 3 ∧ m = .const1 ∧ ∃ src, i.operands = [src, ⟨r, m⟩]) ∨
    (∃ b, i ∈ [Instr.rrc b ⟨r, m⟩, .swpb b ⟨r, m⟩, .rra b ⟨r, m⟩, .sxt b ⟨r, m⟩] ∧
      m ∈ [ModeTag.indirect, .indirectIncrement, .const1, .const2, .const4, .const8, .constNeg1])) ∧
  (∀ (o : DoubleOp) (src : OperandRef) (b : Bool) (s : State), OperandFits src s →
    exec (mkDouble o src b ⟨3, .const1⟩) s = .fault (.raised (.invalidDestinationMode 3 .const1) s)) ∧
  (∀ (b : Bool) (r : Reg) (m : ModeTag) (i : Instr) (s : State),
    i ∈ [Instr.rrc b ⟨r, m⟩, .swpb b ⟨r, m⟩, .rra b ⟨r, m⟩, .sxt b ⟨r, m⟩] →
    m ∈ [ModeTag.indirect, .indirectIncrement, .const1, .const2, .const4, .const8, .constNeg1] →
    exec i s = .fault (.raised (.invalidDestinationMode r m) s)) ∧
  (∀ (op : OperandRef) (s : State) (r : Reg) (m : ModeTag) (b : Bool) (c : State) (cond : Cond) (offset : Word),
    exec (.push b op) s ≠ .fault (.raised (.invalidDestinationMode r m) c) ∧
    exec (.call b op) s ≠ .fault (.raised (.invalidDestinationMode r m) c) ∧
    exec (.reti b op) s ≠ .fault (.raised (.invalidDestinationMode r m) c) ∧
    exec (mkJump cond offset) s ≠ .fault (.raised (.invalidDestinationMode r m) c))

/-- 70_reset_and_hazards.md section 4: a trace that ends normally ended by a step that fetched 0x3FFF at its final pc and left
that pc, so the final context is the one at the halt loop, with that fetch its last event (a word 0x3FFF that faults is no normal end: log
entry 10; nothing is handed over there: log entry 6). -/
def Obligations.NormalEndIsTheHaltLoop : Prop :=
  ∀ (fuel : Nat) (s t : State), referenceTrace fuel s = .normal t →
    t.mem.word t.pc = 0x3FFF ∧ (∃ l, t.ev = s.ev ++ l ++ [.fetch t.pc]) ∧ t.params = s.params ∧ t.handoff = none

/-- 70_reset_and_hazards.md section 4: a trace is refused exactly when it reaches, within its fuel, a step that goes on, is not the
`JMP $` step, and hands over something other than MOV with b = 0; what is refused is that hand-over. It ends abnormally exactly
when it reaches, within its fuel, a step that faults, with that fault. -/
def Obligations.TracesAreRefusedOutsideTheReferenceLayer : Prop :=
  (∀ (fuel : Nat) (s : State) (h : Option Handoff), referenceTrace fuel s = .refused h ↔
    ∃ (k : Nat) (s' t : State), k < fuel ∧ TraceReaches k s s' ∧ step s' = .next t ∧ s'.mem.word s'.pc ≠ 0x3FFF ∧
      ¬ HasReferenceMeaning t.handoff ∧ h = t.handoff) ∧
  (∀ (fuel : Nat) (s : State) (h : Option Handoff), referenceTrace fuel s = .refused h →
    ∃ h', h = some h' ∧ ¬ (h'.op = .double .mov ∧ h'.b = false)) ∧
  (∀ (fuel : Nat) (s : State) (f : Fault), referenceTrace fuel s = .abnormal f ↔
    ∃ (k : Nat) (s' : State), k < fuel ∧ TraceReaches k s s' ∧ step s' = .fault f) ∧
  (∀ (k : Nat) (s s' : State), TraceReaches k s s' → s'.params = s.params)

/-- 70_reset_and_hazards.md section 4: a trace ends normally exactly when it reaches, within its fuel, a word 0x3FFF whose step goes
on, and its end is the context after that step (a word 0x3FFF that faults is no normal end: log entry 10); MOV with b = 0 and the
jumps let it go on, and it runs out of fuel exactly when as many steps as it has fuel went on so. -/
def Obligations.TracesGoOnUntilTheHaltWord : Prop :=
  (∀ (fuel : Nat) (s t : State), referenceTrace fuel s = .normal t ↔
    ∃ (k : Nat) (s' : State), k < fuel ∧ TraceReaches k s s' ∧ s'.mem.word s'.pc = 0x3FFF ∧ step s' = .next t) ∧
  (∀ (fuel : Nat) (s s' : State), referenceTrace fuel s = .outOfFuel s' ↔ TraceReaches fuel s s') ∧
  (∀ (src dst : OperandRef) (s t : State), exec (.mov src false dst) s = .next t → HasReferenceMeaning t.handoff) ∧
  (∀ (c : Cond) (offset : Word) (s t : State), s.handoff = none → exec (mkJump c offset) s = .next t →
    HasReferenceMeaning t.handoff)

/-- 41_single_operand.md section 2 and 70_reset_and_hazards.md section 3: whatever the operand field of a RETI word names, the word
after it is the next one fetched as an instruction, and the instruction it decodes to is what the next step executes. That the layer
leaves the pc is the setting the hypothesis names (log entry 11). -/
def Obligations.RetiIsFollowedByTheNextWord : Prop :=
  ∀ (s : State) (b : Bool) (dst : OperandRef), s.params.retiPc = .followingWord → StreamFits 2 s →
    decode s.params (s.mem.word s.pc) = .ok (.reti b dst) →
    ∃ t, step s = .next t ∧ t.pc = s.pc + 1 ∧ t.ev = s.ev ++ [.fetch s.pc] ∧ SameRegsExcept [0, 1, 2] s t ∧ SameMemory s t ∧
      t.params = s.params ∧
      ∃ u, t.fetchInstruction = .ok (s.mem.word (s.pc + 1), u) ∧ u.pc = s.pc + 2 ∧
        ∀ i, decode s.params (s.mem.word (s.pc + 1)) = .ok i → step t = exec i u
end

