-- ==== Sys2Proof/Laws/Encoding.lean ====
section
/-! SUPPORT. The fields of an encoded word, the constant tables as inverse pairs, and the classifier by fields. -/

namespace Sys2Proof

/-! ### Tables and their inverses -/

@[simp] theorem condTable_codeOfCond (c : Cond) : condTable (codeOfCond c) = c := by cases c <;> rfl
@[simp] theorem singleOpTable_codeOfSingleOp (o : SingleOp) : singleOpTable (codeOfSingleOp o) = some o := by cases o <;> rfl
@[simp] theorem doubleOpTable_codeOfDoubleOp (o : DoubleOp) : doubleOpTable (codeOfDoubleOp o) = some o := by cases o <;> rfl
@[simp] theorem regOfField_fieldOfReg (r : Reg) : regOfField (fieldOfReg r) = r := rfl
@[simp] theorem fieldOfReg_regOfField (f : BitVec 4) : fieldOfReg (regOfField f) = f := rfl

theorem codeOfCond_condTable (c : BitVec 3) : codeOfCond (condTable c) = c := by revert c; decide

theorem codeOfSingleOp_of_table {c : BitVec 3} {o : SingleOp} (h : singleOpTable c = some o) : codeOfSingleOp o = c := by
  revert c o; decide

theorem codeOfDoubleOp_of_table {c : BitVec 4} {o : DoubleOp} (h : doubleOpTable c = some o) : codeOfDoubleOp o = c := by
  revert c o; decide

/-- The tag's code inverts the alphabet of any register (30_encoding.md R64, R73). -/
@[simp] theorem codeOfTag_modeOf (r : Reg) (c : BitVec 2) : codeOfTag (modeOf r c) = c := by revert r c; decide

/-- A tag of the register's alphabet is the one its code names. -/
theorem modeOf_codeOfTag {op : OperandRef} (h : op.inAlphabet = true) : modeOf op.reg (codeOfTag op.mode) = op.mode := by
  rcases op with ⟨r, m⟩
  cases m <;> revert r <;> decide

theorem inAlphabet_modeOf (r : Reg) (c : BitVec 2) : OperandRef.inAlphabet ⟨r, modeOf r c⟩ = true := by revert r c; decide

theorem inOneBitAlphabet_modeOf (r : Reg) (c : BitVec 1) :
    OperandRef.inOneBitAlphabet ⟨r, modeOf r (c.zeroExtend 2)⟩ = true := by revert r c; decide

/-- A tag of the one-bit alphabet is the one its bit names (30_encoding.md R56). -/
theorem modeOf_adBit {op : OperandRef} (h : op.inOneBitAlphabet = true) :
    modeOf op.reg ((adBit op.mode).zeroExtend 2) = op.mode := by
  rcases op with ⟨r, m⟩
  cases m <;> revert r <;> decide

theorem adBit_modeOf (r : Reg) (c : BitVec 1) : adBit (modeOf r (c.zeroExtend 2)) = c := by revert r c; decide

/-- The high bit of a mode code is the tag's `highCode`. -/
theorem highCode_modeOf (r : Reg) (c : BitVec 2) : (modeOf r c).highCode = c.getLsbD 1 := by revert r c; decide

theorem highCode_eq (t : ModeTag) : t.highCode = (codeOfTag t).getLsbD 1 := by cases t <;> rfl

/-! ### Words as fields -/

/-- A word is its upper six bits and its lower ten. -/
theorem word_split_10 (w : Word) : field w 10 6 ++ field w 0 10 = w := by
  unfold field
  rw [BitVec.extractLsb'_append_extractLsb'_eq_extractLsb' (by rfl)]
  exact BitVec.extractLsb'_eq_self

/-- A word is its upper three bits and its lower thirteen. -/
theorem word_split_13 (w : Word) : field w 13 3 ++ field w 0 13 = w := by
  unfold field
  rw [BitVec.extractLsb'_append_extractLsb'_eq_extractLsb' (by rfl)]
  exact BitVec.extractLsb'_eq_self

/-- Masking bits 15:10 tests that field. -/
theorem mask_15_10 (w : Word) (c : BitVec 6) : (w &&& 0xFC00 = c ++ 0#10) ↔ field w 10 6 = c := by
  have e : w &&& 0xFC00 = field w 10 6 ++ 0#10 := by
    conv_lhs => rw [← word_split_10 w, show (0xFC00 : Word) = BitVec.allOnes 6 ++ 0#10 from rfl, BitVec.and_append,
      BitVec.and_allOnes, BitVec.and_zero]
  rw [e]
  constructor
  · intro h
    have := congrArg (BitVec.extractLsb' 10 6) h
    rwa [BitVec.extractLsb'_append_eq_of_le (by decide), BitVec.extractLsb'_append_eq_of_le (by decide),
      BitVec.extractLsb'_eq_self, BitVec.extractLsb'_eq_self] at this
  · intro h; rw [h]

/-- Masking bits 15:13 tests that field. -/
theorem mask_15_13 (w : Word) (c : BitVec 3) : (w &&& 0xE000 = c ++ 0#13) ↔ field w 13 3 = c := by
  have e : w &&& 0xE000 = field w 13 3 ++ 0#13 := by
    conv_lhs => rw [← word_split_13 w, show (0xE000 : Word) = BitVec.allOnes 3 ++ 0#13 from rfl, BitVec.and_append,
      BitVec.and_allOnes, BitVec.and_zero]
  rw [e]
  constructor
  · intro h
    have := congrArg (BitVec.extractLsb' 13 3) h
    rwa [BitVec.extractLsb'_append_eq_of_le (by decide), BitVec.extractLsb'_append_eq_of_le (by decide),
      BitVec.extractLsb'_eq_self, BitVec.extractLsb'_eq_self] at this
  · intro h; rw [h]

/-- The classifier by fields: bits 15:10 are the SingleOperand pattern, else bits 15:13 are the Jump pattern
(30_encoding.md R48, R49). -/
theorem classify_by_fields (reading : Config.ClassifierReading) (w : Word) :
    classify reading w =
      if field w 10 6 = singlePattern reading then .singleOperand
      else if field w 13 3 = jumpPattern reading then .jump else .doubleOperand := by
  have h1 := mask_15_10 w
  have h2 := mask_15_13 w
  cases reading
  · have a := h1 0b000100#6; have b := h2 0b001#3
    simp only [classify, singlePattern, jumpPattern, ← a, ← b]; rfl
  · have a := h1 0b001000#6; have b := h2 0b001#3
    simp only [classify, singlePattern, jumpPattern, ← a, ← b]; rfl
  · have a := h1 0b000100#6; have b := h2 0b100#3
    simp only [classify, singlePattern, jumpPattern, ← a, ← b]; rfl

/-- A field above the low part of a joined word lies in its high part. -/
theorem field_high {m n lo k : Nat} (x : BitVec m) (y : BitVec n) (h : n ≤ lo) :
    (x ++ y).extractLsb' lo k = x.extractLsb' (lo - n) k := BitVec.extractLsb'_append_eq_of_le h

/-- A field inside the low part of a joined word lies in its low part. -/
theorem field_low {m n lo k : Nat} (x : BitVec m) (y : BitVec n) (h : lo + k ≤ n) :
    (x ++ y).extractLsb' lo k = y.extractLsb' lo k := BitVec.extractLsb'_append_eq_of_add_le h

/-! ### The fields of encoded words -/

section
variable (p : Config.Params)

theorem encodeSingle_pattern (o : SingleOp) (b : Bool) (dst : OperandRef) :
    field (encodeSingle p o b dst) 10 6 = singlePattern p.reading := by
  simp only [field, encodeSingle]
  rw [field_high _ _ (by decide), field_high _ _ (by decide), field_high _ _ (by decide), field_high _ _ (by decide)]
  exact BitVec.extractLsb'_eq_self

theorem encodeJump_pattern (c : Cond) (offset : Word) : field (encodeJump p c offset) 13 3 = jumpPattern p.reading := by
  simp only [field, encodeJump]
  rw [field_high _ _ (by decide), field_high _ _ (by decide)]
  exact BitVec.extractLsb'_eq_self

theorem encodeDouble_opcode (o : DoubleOp) (src : OperandRef) (b : Bool) (dst : OperandRef) :
    field (encodeDouble o src b dst) 12 4 = codeOfDoubleOp o := by
  simp only [field, encodeDouble]
  rw [field_high _ _ (by decide), field_high _ _ (by decide), field_high _ _ (by decide), field_high _ _ (by decide),
    field_high _ _ (by decide)]
  exact BitVec.extractLsb'_eq_self

end

/-- Bits 15:10 read as bits 15:13 and 12:10. -/
theorem field_15_10 (w : Word) : field w 10 6 = field w 13 3 ++ field w 10 3 := by
  unfold field
  rw [BitVec.extractLsb'_append_extractLsb'_eq_extractLsb' (by rfl)]

/-- Bits 15:13 are the upper three of bits 15:12. -/
theorem field_15_13_of_15_12 (w : Word) : field w 13 3 = (field w 12 4).extractLsb' 1 3 := by
  unfold field
  ext i hi
  have h1 : 1 + i < 4 := by omega
  have h2 : 12 + (1 + i) = 13 + i := by omega
  simp [h1, h2]

/-- Bits 15:13 are the upper three of bits 15:10. -/
theorem field_15_13_of_15_10 (w : Word) : field w 13 3 = (field w 10 6).extractLsb' 3 3 := by
  rw [field_15_10, BitVec.extractLsb'_append_eq_of_le (by decide)]
  exact BitVec.extractLsb'_eq_self.symm

/-! ### The format of an encoded word -/

theorem classify_encodeSingle (p : Config.Params) (o : SingleOp) (b : Bool) (dst : OperandRef) :
    classify p.reading (encodeSingle p o b dst) = .singleOperand := by
  rw [classify_by_fields, if_pos (encodeSingle_pattern p o b dst)]

theorem encodeJump_condition (p : Config.Params) (c : Cond) (offset : Word) :
    field (encodeJump p c offset) 10 3 = codeOfCond c := by
  simp only [field, encodeJump]
  rw [field_high _ _ (by decide), field_low _ _ (by decide)]
  exact BitVec.extractLsb'_eq_self

/-- Every jump but JNE under `lsb_first_literal` is encoded in a Jump word (30_encoding.md R50). -/
theorem classify_encodeJump (p : Config.Params) (c : Cond) (offset : Word)
    (h : c ≠ .notEqual ∨ p.reading ≠ .lsbFirstLiteral) : classify p.reading (encodeJump p c offset) = .jump := by
  have hs : field (encodeJump p c offset) 10 6 ≠ singlePattern p.reading := by
    rw [field_15_10, encodeJump_pattern, encodeJump_condition]
    cases hr : p.reading <;> cases c <;> simp_all [jumpPattern, codeOfCond, singlePattern]
  rw [classify_by_fields, if_neg hs, if_pos (encodeJump_pattern p c offset)]

/-- Every opcode but 0x8 and 0x9 under `msb_first_literal` is encoded in a DoubleOperand word (30_encoding.md R50). -/
theorem classify_encodeDouble (p : Config.Params) (o : DoubleOp) (src : OperandRef) (b : Bool) (dst : OperandRef)
    (h : (o ≠ .sub ∧ o ≠ .cmp) ∨ p.reading ≠ .msbFirstLiteral) :
    classify p.reading (encodeDouble o src b dst) = .doubleOperand := by
  have e := encodeDouble_opcode o src b dst
  have e3 : field (encodeDouble o src b dst) 13 3 = (codeOfDoubleOp o).extractLsb' 1 3 := by
    rw [field_15_13_of_15_12, e]
  have hs : field (encodeDouble o src b dst) 10 6 ≠ singlePattern p.reading := by
    intro hp
    have h3 := field_15_13_of_15_10 (encodeDouble o src b dst)
    rw [e3, hp] at h3
    revert h3
    cases p.reading <;> cases o <;> decide
  have hj : field (encodeDouble o src b dst) 13 3 ≠ jumpPattern p.reading := by
    rw [e3]
    cases hr : p.reading <;> cases o <;> simp_all [jumpPattern, codeOfDoubleOp]
  rw [classify_by_fields, if_neg hs, if_neg hj]

end Sys2Proof
end

