-- ==== Sys2Proof/Laws/Memory.lean ====
section
/-! SUPPORT. The laws of memory: a read after a write, and the canonical form. They hold of every list of cells unless a
hypothesis says otherwise. -/

namespace Sys2Proof.Machine

theorem Memory.byte_cons (c : Host.Cell) (m : Memory) (k : Nat) :
    Memory.byte (c :: m) k = if c.1 = k then c.2 else Memory.byte m k := rfl

/-- Dropping the cells of one key leaves every other byte and makes that byte 0. -/
theorem Memory.byte_filter (m : Memory) (k j : Nat) :
    Memory.byte (m.filter (fun c => c.1 ≠ k)) j = if j = k then 0 else m.byte j := by
  induction m with
  | nil => by_cases h : j = k <;> simp [Memory.byte, h]
  | cons c rest ih =>
    by_cases hc : c.1 = k
    · by_cases hj : j = k
      · simp_all
      · have : c.1 ≠ j := fun e => hj (e.symm.trans hc)
        simp_all [Memory.byte]
    · by_cases hj : c.1 = j
      · have : j ≠ k := fun e => hc (hj.trans e)
        simp_all [Memory.byte]
      · simp_all [Memory.byte]

/-- Inserting a cell whose key is not listed gives that key its byte and leaves the others. -/
theorem Memory.byte_insert (m : Memory) (k j : Nat) (v : Byte) (h : ∀ c ∈ m, c.1 ≠ k) :
    Memory.byte (m.insert k v) j = if j = k then v else m.byte j := by
  induction m with
  | nil => by_cases hj : k = j <;> simp [Memory.insert, Memory.byte, hj, eq_comm]
  | cons c rest ih =>
    have hc : c.1 ≠ k := h c (by simp)
    have hrest := ih (fun d hd => h d (by simp [hd]))
    unfold Memory.insert
    split
    · by_cases hj : k = j
      · subst hj; simp [Memory.byte]
      · simp [Memory.byte, hj, Ne.symm hj]
    · rw [Memory.byte_cons, hrest, Memory.byte_cons]
      by_cases hj : j = k
      · subst hj; simp [hc]
      · simp [hj]

/-- A byte reads what was last written to it. -/
theorem Memory.byte_setByte (m : Memory) (k j : Nat) (v : Byte) :
    (m.setByte k v).byte j = if j = k then v else m.byte j := by
  unfold Memory.setByte
  by_cases hv : v = 0
  · simp only [hv, if_true, Memory.byte_filter]
  · simp only [hv, if_false]
    rw [Memory.byte_insert _ _ _ _ (by simp), Memory.byte_filter]
    split <;> rfl

/-- A word is its two bytes. -/
theorem word_of_bytes (v : Word) : v.extractLsb' 8 8 ++ v.extractLsb' 0 8 = v := by
  ext i hi
  simp only [BitVec.getElem_append, BitVec.getElem_extractLsb']
  split
  · simp [BitVec.getLsbD_eq_getElem, hi]
  · rename_i h
    have e : 8 + (i - 8) = i := by omega
    rw [e, BitVec.getLsbD_eq_getElem hi]

/-- A word reads what was last written to it. -/
theorem Memory.word_setWord (m : Memory) (a a' v : Word) :
    (m.setWord a v).word a' = if a' = a then v else m.word a' := by
  unfold Memory.word Memory.setWord
  simp only [Memory.byte_setByte]
  by_cases h : a' = a
  · subst h
    simp [word_of_bytes]
  · have hn : a'.toNat ≠ a.toNat := fun e => h (BitVec.eq_of_toNat_eq e)
    have h2 : 2 * a'.toNat + 1 ≠ 2 * a.toNat := by omega
    have h3 : 2 * a'.toNat ≠ 2 * a.toNat + 1 := by omega
    have h4 : 2 * a'.toNat ≠ 2 * a.toNat := by omega
    simp [h, h2, h3, h4]

@[simp] theorem Memory.word_setWord_same (m : Memory) (a v : Word) : (m.setWord a v).word a = v := by
  simp [Memory.word_setWord]

@[simp] theorem Memory.word_setWord_other (m : Memory) {a a' : Word} (v : Word) (h : a' ≠ a) :
    (m.setWord a v).word a' = m.word a' := by
  simp [Memory.word_setWord, h]

/-! ### The canonical form -/

theorem Memory.mem_insert {m : Memory} {k : Nat} {v : Byte} {c : Host.Cell} :
    c ∈ m.insert k v ↔ c = (k, v) ∨ c ∈ m := by
  induction m with
  | nil => simp [Memory.insert]
  | cons d rest ih =>
    unfold Memory.insert
    split
    · simp
    · rw [List.mem_cons, ih, List.mem_cons]; tauto

theorem Memory.insert_rising {m : Memory} (k : Nat) (v : Byte) (hm : m.Pairwise (fun c d => c.1 < d.1))
    (h : ∀ c ∈ m, c.1 ≠ k) : (m.insert k v).Pairwise (fun c d => c.1 < d.1) := by
  induction m with
  | nil => simp [Memory.insert]
  | cons d rest ih =>
    have hd : d.1 ≠ k := h d (by simp)
    rw [List.pairwise_cons] at hm
    unfold Memory.insert
    split
    · rename_i hk
      rw [List.pairwise_cons, List.pairwise_cons]
      refine ⟨?_, hm⟩
      intro c hc
      rcases List.mem_cons.mp hc with rfl | hc
      · exact hk
      · exact lt_trans hk (hm.1 c hc)
    · rw [List.pairwise_cons]
      refine ⟨?_, ih hm.2 (fun c hc => h c (by simp [hc]))⟩
      intro c hc
      rcases Memory.mem_insert.mp hc with rfl | hc
      · simp only; omega
      · exact hm.1 c hc

/-- Writing a byte keeps the canonical form. -/
theorem Memory.wf_setByte {m : Memory} {k : Nat} (v : Byte) (hm : m.wf) (hk : k < 2 * 65536) : (m.setByte k v).wf := by
  have hf : (m.filter (fun c => c.1 ≠ k)).Pairwise (fun c d => c.1 < d.1) := hm.1.filter _
  have hmem : ∀ c ∈ m.filter (fun c => c.1 ≠ k), c.2 ≠ 0 ∧ c.1 < 2 * 65536 :=
    fun c hc => hm.2 c (List.mem_filter.mp hc).1
  unfold Memory.setByte
  by_cases hv : v = 0
  · simp only [hv, if_true]
    exact ⟨hf, hmem⟩
  · simp only [hv, if_false]
    refine ⟨Memory.insert_rising k v hf (by simp), ?_⟩
    intro c hc
    rcases Memory.mem_insert.mp hc with rfl | hc
    · exact ⟨hv, hk⟩
    · exact hmem c hc

/-- Writing a word keeps the canonical form. -/
theorem Memory.wf_setWord {m : Memory} (a v : Word) (hm : m.wf) : (m.setWord a v).wf := by
  have := a.isLt
  exact Memory.wf_setByte _ (Memory.wf_setByte _ hm (by omega)) (by omega)

theorem Memory.wf_nil : Memory.wf [] := by simp [Memory.wf]

/-- Two canonical memories with equal bytes are equal lists. -/
theorem Memory.ext_of_wf {m m' : Memory} (hm : m.wf) (hm' : m'.wf) (h : ∀ k, m.byte k = m'.byte k) : m = m' := by
  have unlisted : ∀ {l : Memory} {k : Nat}, (∀ c ∈ l, k < c.1) → l.byte k = 0 := by
    intro l k hl
    induction l with
    | nil => rfl
    | cons c rest ih =>
      have : c.1 ≠ k := by have := hl c (by simp); omega
      simp [Memory.byte, this, ih (fun d hd => hl d (by simp [hd]))]
  have tail : ∀ {c : Host.Cell} {l : Memory}, Memory.wf (c :: l) → l.wf := fun w =>
    ⟨(List.pairwise_cons.mp w.1).2, fun d hd => w.2 d (by simp [hd])⟩
  induction m generalizing m' with
  | nil =>
    cases m' with
    | nil => rfl
    | cons d rest =>
      have := h d.1
      simp [Memory.byte] at this
      exact absurd this.symm (hm'.2 d (by simp)).1
  | cons c rest ih =>
    cases m' with
    | nil =>
      have := h c.1
      simp [Memory.byte] at this
      exact absurd this (hm.2 c (by simp)).1
    | cons d rest' =>
      have hc := (List.pairwise_cons.mp hm.1).1
      have hd := (List.pairwise_cons.mp hm'.1).1
      have key : c.1 = d.1 := by
        rcases lt_trichotomy c.1 d.1 with hlt | heq | hgt
        · have e := h c.1
          rw [unlisted (l := d :: rest') (by
            intro x hx
            rcases List.mem_cons.mp hx with rfl | hx
            · exact hlt
            · exact lt_trans hlt (hd x hx))] at e
          simp [Memory.byte] at e
          exact absurd e (hm.2 c (by simp)).1
        · exact heq
        · have e := h d.1
          rw [unlisted (l := c :: rest) (by
            intro x hx
            rcases List.mem_cons.mp hx with rfl | hx
            · exact hgt
            · exact lt_trans hgt (hc x hx))] at e
          simp [Memory.byte] at e
          exact absurd e.symm (hm'.2 d (by simp)).1
      have val : c.2 = d.2 := by
        have e := h c.1
        simpa [Memory.byte, key] using e
      have hcd : c = d := Prod.ext key val
      subst hcd
      refine congrArg (c :: ·) (ih (tail hm) (tail hm') ?_)
      intro k
      by_cases hk : c.1 = k
      · subst hk
        rw [unlisted hc, unlisted hd]
      · have e := h k
        simpa [Memory.byte, hk] using e

end Sys2Proof.Machine
end

