-- ==== Sys2Proof/Laws/State.lean ====
section
/-! SUPPORT. One lemma per field per update of the state, and the register accessors' laws. -/

namespace Sys2Proof.Machine

section
variable (s : State) (r r' : Reg) (v : Word) (a : Word) (e : Event) (h : Handoff) (k : Nat) (loc : Location)

/-! ### writeReg -/

@[simp] theorem State.writeReg_params : (s.writeReg r v).params = s.params := by unfold State.writeReg; split <;> rfl
@[simp] theorem State.writeReg_mem : (s.writeReg r v).mem = s.mem := by unfold State.writeReg; split <;> rfl
@[simp] theorem State.writeReg_ev : (s.writeReg r v).ev = s.ev := by unfold State.writeReg; split <;> rfl
@[simp] theorem State.writeReg_handoff : (s.writeReg r v).handoff = s.handoff := by unfold State.writeReg; split <;> rfl
@[simp] theorem State.writeReg_freeIdx : (s.writeReg r v).freeIdx = s.freeIdx := by unfold State.writeReg; split <;> rfl

/-- A write to the zero register is discarded (10_state.md R15). -/
@[simp] theorem State.writeReg_zero : s.writeReg 3 v = s := rfl

/-- The stored cell of the zero register is never written. -/
@[simp] theorem State.writeReg_zeroCell : (s.writeReg r v).regs[3] = s.regs[3] := by
  unfold State.writeReg
  split
  · rfl
  · rename_i h3
    have : r.val ≠ 3 := fun e => h3 (Fin.ext e)
    simp [this]

/-- The zero register reads 0 (10_state.md R15). -/
@[simp] theorem State.readReg_zero : s.readReg 3 = 0 := rfl

@[simp] theorem State.readReg_writeReg_same (h3 : r ≠ 3) : (s.writeReg r v).readReg r = v := by
  simp [State.readReg, State.writeReg, h3]

@[simp] theorem State.readReg_writeReg_other (hne : r' ≠ r) : (s.writeReg r v).readReg r' = s.readReg r' := by
  unfold State.readReg State.writeReg
  split
  · rfl
  · split
    · rfl
    · have : r.val ≠ r'.val := fun e => hne (Fin.ext e.symm)
      simp [this]

/-! ### setPc and pc: register 0 is spelled `pc` and `setPc` (10_state.md R18) -/

@[simp] theorem State.readReg_pcReg : s.readReg 0 = s.pc := rfl
@[simp] theorem State.writeReg_pcReg : s.writeReg 0 v = s.setPc v := rfl
@[simp] theorem State.pc_writeReg_other (h0 : r ≠ 0) : (s.writeReg r v).pc = s.pc :=
  State.readReg_writeReg_other s r 0 v (Ne.symm h0)

@[simp] theorem State.setPc_params : (s.setPc v).params = s.params := State.writeReg_params s 0 v
@[simp] theorem State.setPc_mem : (s.setPc v).mem = s.mem := State.writeReg_mem s 0 v
@[simp] theorem State.setPc_ev : (s.setPc v).ev = s.ev := State.writeReg_ev s 0 v
@[simp] theorem State.setPc_handoff : (s.setPc v).handoff = s.handoff := State.writeReg_handoff s 0 v
@[simp] theorem State.setPc_freeIdx : (s.setPc v).freeIdx = s.freeIdx := State.writeReg_freeIdx s 0 v
@[simp] theorem State.setPc_zeroCell : (s.setPc v).regs[3] = s.regs[3] := State.writeReg_zeroCell s 0 v
@[simp] theorem State.setPc_pc : (s.setPc v).pc = v := State.readReg_writeReg_same s 0 v (by decide)
@[simp] theorem State.readReg_setPc_other (h0 : r ≠ 0) : (s.setPc v).readReg r = s.readReg r :=
  State.readReg_writeReg_other s 0 r v h0

/-! ### logEvent -/

@[simp] theorem State.logEvent_params : (s.logEvent e).params = s.params := rfl
@[simp] theorem State.logEvent_regs : (s.logEvent e).regs = s.regs := rfl
@[simp] theorem State.logEvent_mem : (s.logEvent e).mem = s.mem := rfl
@[simp] theorem State.logEvent_ev : (s.logEvent e).ev = s.ev ++ [e] := rfl
@[simp] theorem State.logEvent_handoff : (s.logEvent e).handoff = s.handoff := rfl
@[simp] theorem State.logEvent_freeIdx : (s.logEvent e).freeIdx = s.freeIdx := rfl
@[simp] theorem State.readReg_logEvent : (s.logEvent e).readReg r = s.readReg r := rfl
@[simp] theorem State.pc_logEvent : (s.logEvent e).pc = s.pc := rfl

/-! ### afterRead -/

@[simp] theorem State.afterRead_params : (s.afterRead a).params = s.params := rfl
@[simp] theorem State.afterRead_regs : (s.afterRead a).regs = s.regs := rfl
@[simp] theorem State.afterRead_mem : (s.afterRead a).mem = s.mem := rfl
@[simp] theorem State.afterRead_ev : (s.afterRead a).ev = s.ev ++ [.read a] := rfl
@[simp] theorem State.afterRead_handoff : (s.afterRead a).handoff = s.handoff := rfl
@[simp] theorem State.afterRead_freeIdx : (s.afterRead a).freeIdx = s.freeIdx := rfl
@[simp] theorem State.readReg_afterRead : (s.afterRead a).readReg r = s.readReg r := rfl
@[simp] theorem State.pc_afterRead : (s.afterRead a).pc = s.pc := rfl

/-! ### afterStream -/

@[simp] theorem State.afterStream_params : s.afterStream.params = s.params := by simp [State.afterStream]
@[simp] theorem State.afterStream_mem : s.afterStream.mem = s.mem := by simp [State.afterStream]
@[simp] theorem State.afterStream_ev : s.afterStream.ev = s.ev ++ [.fetch s.pc] := by simp [State.afterStream]
@[simp] theorem State.afterStream_handoff : s.afterStream.handoff = s.handoff := by simp [State.afterStream]
@[simp] theorem State.afterStream_freeIdx : s.afterStream.freeIdx = s.freeIdx := by simp [State.afterStream]
@[simp] theorem State.afterStream_zeroCell : s.afterStream.regs[3] = s.regs[3] := by simp [State.afterStream]
@[simp] theorem State.pc_afterStream : s.afterStream.pc = s.pc + 1 := by simp [State.afterStream]
@[simp] theorem State.readReg_afterStream_other (h0 : r ≠ 0) : s.afterStream.readReg r = s.readReg r := by
  simp [State.afterStream, h0]

/-! ### writeMem -/

@[simp] theorem State.writeMem_params : (s.writeMem a v).params = s.params := rfl
@[simp] theorem State.writeMem_regs : (s.writeMem a v).regs = s.regs := rfl
@[simp] theorem State.writeMem_mem : (s.writeMem a v).mem = s.mem.setWord a v := rfl
@[simp] theorem State.writeMem_ev : (s.writeMem a v).ev = s.ev := rfl
@[simp] theorem State.writeMem_handoff : (s.writeMem a v).handoff = s.handoff := rfl
@[simp] theorem State.writeMem_freeIdx : (s.writeMem a v).freeIdx = s.freeIdx := rfl
@[simp] theorem State.readReg_writeMem : (s.writeMem a v).readReg r = s.readReg r := rfl
@[simp] theorem State.pc_writeMem : (s.writeMem a v).pc = s.pc := rfl

/-! ### writeLoc -/

@[simp] theorem State.writeLoc_reg : s.writeLoc (.reg r) v = s.writeReg r v := rfl
@[simp] theorem State.writeLoc_mem : s.writeLoc (.mem a) v = s.writeMem a v := rfl
@[simp] theorem State.writeLoc_params : (s.writeLoc loc v).params = s.params := by cases loc <;> simp
@[simp] theorem State.writeLoc_ev : (s.writeLoc loc v).ev = s.ev := by cases loc <;> simp
@[simp] theorem State.writeLoc_handoff : (s.writeLoc loc v).handoff = s.handoff := by cases loc <;> simp
@[simp] theorem State.writeLoc_freeIdx : (s.writeLoc loc v).freeIdx = s.freeIdx := by cases loc <;> simp
@[simp] theorem State.writeLoc_zeroCell : (s.writeLoc loc v).regs[3] = s.regs[3] := by cases loc <;> simp

/-! ### handOver, clearHandoff and drew -/

@[simp] theorem State.handOver_params : (s.handOver h).params = s.params := rfl
@[simp] theorem State.handOver_regs : (s.handOver h).regs = s.regs := rfl
@[simp] theorem State.handOver_mem : (s.handOver h).mem = s.mem := rfl
@[simp] theorem State.handOver_ev : (s.handOver h).ev = s.ev := rfl
@[simp] theorem State.handOver_handoff : (s.handOver h).handoff = some h := rfl
@[simp] theorem State.handOver_freeIdx : (s.handOver h).freeIdx = s.freeIdx := rfl
@[simp] theorem State.readReg_handOver : (s.handOver h).readReg r = s.readReg r := rfl
@[simp] theorem State.pc_handOver : (s.handOver h).pc = s.pc := rfl

@[simp] theorem State.clearHandoff_params : s.clearHandoff.params = s.params := rfl
@[simp] theorem State.clearHandoff_regs : s.clearHandoff.regs = s.regs := rfl
@[simp] theorem State.clearHandoff_mem : s.clearHandoff.mem = s.mem := rfl
@[simp] theorem State.clearHandoff_ev : s.clearHandoff.ev = s.ev := rfl
@[simp] theorem State.clearHandoff_handoff : s.clearHandoff.handoff = none := rfl
@[simp] theorem State.clearHandoff_freeIdx : s.clearHandoff.freeIdx = s.freeIdx := rfl
@[simp] theorem State.readReg_clearHandoff : s.clearHandoff.readReg r = s.readReg r := rfl
@[simp] theorem State.pc_clearHandoff : s.clearHandoff.pc = s.pc := rfl

@[simp] theorem State.drew_params : (s.drew k).params = s.params := rfl
@[simp] theorem State.drew_regs : (s.drew k).regs = s.regs := rfl
@[simp] theorem State.drew_mem : (s.drew k).mem = s.mem := rfl
@[simp] theorem State.drew_ev : (s.drew k).ev = s.ev := rfl
@[simp] theorem State.drew_handoff : (s.drew k).handoff = s.handoff := rfl
@[simp] theorem State.drew_freeIdx : (s.drew k).freeIdx = s.freeIdx + k := rfl
@[simp] theorem State.readReg_drew : (s.drew k).readReg r = s.readReg r := rfl
@[simp] theorem State.pc_drew : (s.drew k).pc = s.pc := rfl

end

end Sys2Proof.Machine
end

