-- ==== Sys2Proof/Laws/Ops.lean ====
section
/-! SUPPORT. What each shared operation of Machine/Ops.lean can answer, and the rules of the frame vocabulary. -/

namespace Sys2Proof.Machine

/-! ### The effective-address adder -/

/-- Wrapping the exact sum is adding modulo 2^16, whether the displacement is read signed or not (40_operand_resolver.md R83). -/
theorem ofInt_signedSum (base disp : Word) : BitVec.ofInt 16 ((base.toNat : Int) + disp.toInt) = base + disp := by
  rw [BitVec.ofInt_add, BitVec.ofInt_toInt]
  congr 1
  exact BitVec.eq_of_toNat_eq (by simp)

/-- Where the sum fits, the adder answers it. -/
theorem effectiveAddress_of_fits {p : Config.Params} {base disp : Word} (h : SumFits p base disp) :
    effectiveAddress p base disp = .ok (base + disp) := by
  unfold effectiveAddress
  simp only [ofInt_signedSum]
  cases hp : p.addrOverflow
  · rfl
  · rcases h with h | h
    · rw [hp] at h; cases h
    · simp only [h, and_self, if_true]

/-- Where it does not, the adder answers the overflow with the exact sum. -/
theorem effectiveAddress_of_not_fits {p : Config.Params} {base disp : Word} (h : ¬ SumFits p base disp) :
    effectiveAddress p base disp = .error (.addressOverflow ((base.toNat : Int) + disp.toInt)) := by
  unfold effectiveAddress
  unfold SumFits at h
  push Not at h
  cases hp : p.addrOverflow
  · exact absurd hp h.1
  · simp only
    rw [if_neg]
    rintro ⟨h1, h2⟩
    exact absurd h2 (not_le.mpr (h.2 h1))

/-- Everything the adder can answer. -/
theorem effectiveAddress_cases (p : Config.Params) (base disp : Word) :
    (SumFits p base disp ∧ effectiveAddress p base disp = .ok (base + disp)) ∨
    (¬ SumFits p base disp ∧ p.addrOverflow = .fault ∧
      effectiveAddress p base disp = .error (.addressOverflow ((base.toNat : Int) + disp.toInt))) := by
  by_cases h : SumFits p base disp
  · exact .inl ⟨h, effectiveAddress_of_fits h⟩
  · refine .inr ⟨h, ?_, effectiveAddress_of_not_fits h⟩
    cases hp : p.addrOverflow
    · exact absurd (.inl hp) h
    · rfl

/-! ### The stream -/

/-- One stream word fits exactly when the pc is not at the top, or wraps. -/
theorem streamFits_one (s : State) : StreamFits 1 s ↔ (s.params.addrOverflow = .wrap ∨ s.pc ≠ 0xFFFF) := by
  unfold StreamFits
  have hlt := s.pc.isLt
  have : s.pc ≠ 0xFFFF ↔ s.pc.toNat + 1 ≤ 0xFFFF := by
    rw [Ne, ← BitVec.toNat_inj]
    have : (0xFFFF : Word).toNat = 65535 := rfl
    omega
  rw [this]

theorem streamNext_of_fits {s : State} (h : StreamFits 1 s) : s.streamNext = .ok (s.mem.word s.pc, s.afterStream) := by
  rw [streamFits_one] at h
  unfold State.streamNext
  cases hp : s.params.addrOverflow
  · rfl
  · rw [hp] at h
    simp at h
    simp [h]

theorem streamNext_of_not_fits {s : State} (h : ¬ StreamFits 1 s) :
    s.streamNext = .error (.addressOverflow 0xFFFF) ∧ s.params.addrOverflow = .fault ∧ s.pc = 0xFFFF := by
  rw [streamFits_one] at h
  push Not at h
  have hp : s.params.addrOverflow = .fault := by
    cases hp : s.params.addrOverflow
    · exact absurd hp h.1
    · rfl
  exact ⟨by simp [State.streamNext, hp, h.2], hp, h.2⟩

/-- Everything `StreamNext()` can answer (20_memory.md R34). -/
theorem streamNext_cases (s : State) :
    (StreamFits 1 s ∧ s.streamNext = .ok (s.mem.word s.pc, s.afterStream)) ∨
    (¬ StreamFits 1 s ∧ s.params.addrOverflow = .fault ∧ s.pc = 0xFFFF ∧
      s.streamNext = .error (.addressOverflow 0xFFFF)) := by
  by_cases h : StreamFits 1 s
  · exact .inl ⟨h, streamNext_of_fits h⟩
  · obtain ⟨h1, h2, h3⟩ := streamNext_of_not_fits h
    exact .inr ⟨h, h2, h3, h1⟩

/-- Everything the instruction-word fetch can answer (70_reset_and_hazards.md R170). -/
theorem fetchInstruction_cases (s : State) :
    (StreamFits 1 s ∧ s.fetchInstruction = .ok (s.mem.word s.pc, s.clearHandoff.afterStream)) ∨
    (¬ StreamFits 1 s ∧ s.params.addrOverflow = .fault ∧ s.pc = 0xFFFF ∧
      s.fetchInstruction = .error (.addressOverflow 0xFFFF)) :=
  streamNext_cases s.clearHandoff

/-! ### Frames -/

theorem SameRegsExcept.refl (l : List Reg) (s : State) : SameRegsExcept l s s := fun _ _ => rfl

theorem SameRegsExcept.trans {l l' : List Reg} {s t u : State} (h : SameRegsExcept l s t) (h' : SameRegsExcept l' t u) :
    SameRegsExcept (l ++ l') s u := by
  intro r hr
  simp only [List.mem_append, not_or] at hr
  rw [h' r hr.2, h r hr.1]

theorem SameRegsExcept.mono {l l' : List Reg} {s t : State} (h : SameRegsExcept l s t) (hl : ∀ r ∈ l, r ∈ l') :
    SameRegsExcept l' s t := fun r hr => h r (fun hm => hr (hl r hm))

theorem SameRegsExcept.afterStream (s : State) : SameRegsExcept [0] s s.afterStream := by
  intro r hr
  exact State.readReg_afterStream_other s r (by simpa using hr)

theorem SameRegsExcept.writeReg (s : State) (r : Reg) (v : Word) : SameRegsExcept [r] s (s.writeReg r v) := by
  intro r' hr
  exact State.readReg_writeReg_other s r r' v (by simpa using hr)

theorem SameMemory.refl (s : State) : SameMemory s s := fun _ => rfl

theorem SameMemory.of_eq {s t : State} (h : t.mem = s.mem) : SameMemory s t := fun a => by rw [h]

theorem SameMemoryExcept.writeMem (s : State) (a v : Word) : SameMemoryExcept a s (s.writeMem a v) :=
  fun _ h => Memory.word_setWord_other s.mem v h

end Sys2Proof.Machine
end

