-- ==== Sys2Proof/Laws/Operands.lean ====
section
/-! SUPPORT. What the operand resolver can answer: when it answers, and what the context is then. -/

namespace Sys2Proof.Machine

/-! ### Indexed addresses -/

theorem indexBase_afterStream (r : Reg) (s : State) : indexBase s s.afterStream r = indexedBase r s := by
  unfold indexBase indexedBase
  rw [State.afterStream_params]
  by_cases h0 : r = 0
  · subst h0
    cases s.params.pcIndexBase <;> simp
  · cases s.params.pcIndexBase <;> simp [h0]

/-- The stream's overflow comes first and records 0xFFFF (60_exceptions.md R154). -/
theorem overflowValue_of_not_stream_fits (op : OperandRef) {s : State} (h : ¬ StreamFits 1 s) : overflowValue op s = 0xFFFF :=
  if_pos (streamNext_of_not_fits h).2.2

/-- Where the stream does not overflow, the recorded value is the exact sum (60_exceptions.md R154). -/
theorem overflowValue_of_stream_fits {op : OperandRef} {s : State} (h : StreamFits 1 s) (hp : s.params.addrOverflow = .fault) :
    overflowValue op s = ((indexedBase op.reg s).toNat : Int) + (s.mem.word s.pc).toInt := by
  rw [streamFits_one, hp] at h
  exact if_neg (h.resolve_left (by decide))

/-- Everything an Indexed address can answer (40_operand_resolver.md R86, R87, R96). -/
theorem resolveIndexed_cases (r : Reg) (s : State) :
    (StreamFits 1 s ∧ SumFits s.params (indexedBase r s) (s.mem.word s.pc) ∧
      resolveIndexed r s = .ok (indexedBase r s + s.mem.word s.pc, s.afterStream)) ∨
    (¬ (StreamFits 1 s ∧ SumFits s.params (indexedBase r s) (s.mem.word s.pc)) ∧ s.params.addrOverflow = .fault ∧
      resolveIndexed r s = .error (.addressOverflow (overflowValue ⟨r, .indexed⟩ s))) := by
  unfold resolveIndexed
  rcases streamNext_cases s with ⟨hf, he⟩ | ⟨hf, hp, -, he⟩
  · simp only [he, indexBase_afterStream, State.afterStream_params]
    rcases effectiveAddress_cases s.params (indexedBase r s) (s.mem.word s.pc) with ⟨hs, ha⟩ | ⟨hs, hp, ha⟩
    · exact .inl ⟨hf, hs, by rw [ha]⟩
    · refine .inr ⟨fun h => hs h.2, hp, ?_⟩
      rw [ha, overflowValue_of_stream_fits hf hp]
  · exact .inr ⟨fun h => hf h.1, hp, by rw [he, overflowValue_of_not_stream_fits _ hf]⟩

/-! ### When an operand resolves -/

theorem streamFits_zero (s : State) : StreamFits 0 s := .inr (by have := s.pc.isLt; omega)

/-- A source that fits resolves (40_operand_resolver.md R81). -/
theorem resolveSource_of_fits {op : OperandRef} {s : State} (h : OperandFits op s) :
    ∃ v t, resolveSource op s = .ok (v, t) := by
  obtain ⟨h1, h2⟩ := h
  rcases op with ⟨r, m⟩
  cases m <;> simp only [resolveSource, readAt, OperandRef.extWords] at h1 h2 ⊢
  case indexed =>
    rcases resolveIndexed_cases r s with ⟨-, -, he⟩ | ⟨hn, -, -⟩
    · exact ⟨_, _, by rw [he]⟩
    · exact absurd ⟨h1, h2 trivial⟩ hn
  case indirect =>
    split
    · rename_i h0; rw [if_pos h0] at h1; exact ⟨_, _, streamNext_of_fits h1⟩
    · exact ⟨_, _, rfl⟩
  case indirectIncrement =>
    split
    · rename_i h0; rw [if_pos h0] at h1; exact ⟨_, _, streamNext_of_fits h1⟩
    · exact ⟨_, _, rfl⟩
  case absoluteAddressing => exact ⟨_, _, by rw [streamNext_of_fits h1]⟩
  all_goals exact ⟨_, _, rfl⟩

/-- A source that does not fit answers an address overflow, and only under `fault`. -/
theorem resolveSource_of_not_fits {op : OperandRef} {s : State} (h : ¬ OperandFits op s) :
    s.params.addrOverflow = .fault ∧ resolveSource op s = .error (.addressOverflow (overflowValue op s)) := by
  rcases op with ⟨r, m⟩
  have stream : ∀ op, ¬ StreamFits 1 s →
      s.params.addrOverflow = .fault ∧ s.streamNext = .error (.addressOverflow (overflowValue op s)) :=
    fun op hs => ⟨(streamNext_of_not_fits hs).2.1, by
      rw [(streamNext_of_not_fits hs).1, overflowValue_of_not_stream_fits op hs]⟩
  cases m <;> simp only [resolveSource, readAt, OperandFits, OperandRef.extWords] at h ⊢
  case indexed =>
    rcases resolveIndexed_cases r s with ⟨hf, hs, -⟩ | ⟨-, hp, he⟩
    · exact absurd ⟨hf, fun _ => hs⟩ h
    · exact ⟨hp, by rw [he]⟩
  case indirect =>
    split
    · rename_i h0
      rw [if_pos h0] at h
      exact stream _ (fun hs => h ⟨hs, fun e => by cases e⟩)
    · rename_i h0
      rw [if_neg h0] at h
      exact absurd ⟨streamFits_zero s, fun e => by cases e⟩ h
  case indirectIncrement =>
    split
    · rename_i h0
      rw [if_pos h0] at h
      exact stream _ (fun hs => h ⟨hs, fun e => by cases e⟩)
    · rename_i h0
      rw [if_neg h0] at h
      exact absurd ⟨streamFits_zero s, fun e => by cases e⟩ h
  case absoluteAddressing =>
    obtain ⟨hp, he⟩ := stream ⟨r, .absoluteAddressing⟩ (fun hs => h ⟨hs, fun e => by cases e⟩)
    exact ⟨hp, by rw [he]⟩
  all_goals exact absurd ⟨streamFits_zero s, fun e => by cases e⟩ h

/-- A legal destination that fits resolves (40_operand_resolver.md R82). -/
theorem resolveDestination_of_fits {op : OperandRef} {s : State} (hl : LegalDestination op) (h : OperandFits op s) :
    ∃ loc t, resolveDestination op s = .ok (loc, t) := by
  obtain ⟨h1, h2⟩ := h
  rcases op with ⟨r, m⟩
  simp only [LegalDestination, List.mem_cons, List.mem_nil_iff, or_false] at hl
  rcases hl with rfl | rfl | rfl | rfl
  · exact ⟨_, _, rfl⟩
  · rcases resolveIndexed_cases r s with ⟨-, -, he⟩ | ⟨hn, -, -⟩
    · exact ⟨_, _, by simp only [resolveDestination, he]; rfl⟩
    · exact absurd ⟨h1, h2 rfl⟩ hn
  · exact ⟨_, _, by simp only [resolveDestination, streamNext_of_fits h1]; rfl⟩
  · exact ⟨_, _, rfl⟩

/-- A legal destination that does not fit answers an address overflow, and only under `fault`. -/
theorem resolveDestination_of_not_fits {op : OperandRef} {s : State} (hl : LegalDestination op) (h : ¬ OperandFits op s) :
    s.params.addrOverflow = .fault ∧ resolveDestination op s = .error (.addressOverflow (overflowValue op s)) := by
  rcases op with ⟨r, m⟩
  simp only [LegalDestination, List.mem_cons, List.mem_nil_iff, or_false] at hl
  rcases hl with rfl | rfl | rfl | rfl
  · exact absurd ⟨streamFits_zero s, fun e => by cases e⟩ h
  · rcases resolveIndexed_cases r s with ⟨hf, hs, -⟩ | ⟨-, hp, he⟩
    · exact absurd ⟨hf, fun _ => hs⟩ h
    · exact ⟨hp, by simp only [resolveDestination, he]⟩
  · by_cases hs : StreamFits 1 s
    · exact absurd ⟨hs, fun e => by cases e⟩ h
    · exact ⟨(streamNext_of_not_fits hs).2.1, by
        simp only [resolveDestination, (streamNext_of_not_fits hs).1, overflowValue_of_not_stream_fits _ hs]⟩
  · exact absurd ⟨streamFits_zero s, fun e => by cases e⟩ h

/-- An illegal tag is refused before any effect (40_operand_resolver.md R99). -/
theorem resolveDestination_of_illegal {op : OperandRef} (s : State) (hl : ¬ LegalDestination op) :
    resolveDestination op s = .error (.invalidDestinationMode op.reg op.mode) := by
  rcases op with ⟨r, m⟩
  cases m <;> first | rfl | exact absurd (by simp [LegalDestination]) hl

/-! ### The context an operand leaves -/

/-- The five ways a source leaves the context: as it was; one stream word on; one data read more; a stream word and then a data
read; or a data read and then its register stepped (40_operand_resolver.md R106). -/
theorem resolveSource_context {op : OperandRef} {s : State} {v : Word} {t : State} (h : resolveSource op s = .ok (v, t)) :
    (t = s ∧ op.extWords = 0) ∨
    (t = s.afterStream ∧ op.extWords = 1 ∧ StreamFits 1 s) ∨
    (∃ a, t = s.afterRead a ∧ op.extWords = 0) ∨
    (∃ a, t = s.afterStream.afterRead a ∧ op.extWords = 1 ∧ StreamFits 1 s) ∨
    (∃ a w, t = (s.afterRead a).writeReg op.reg w ∧ op.extWords = 0 ∧ op.mode = .indirectIncrement ∧ op.reg ≠ 0) := by
  rcases op with ⟨r, m⟩
  cases m <;> simp only [resolveSource, readAt, OperandRef.extWords] at h ⊢
  case indexed =>
    rcases resolveIndexed_cases r s with ⟨hf, -, he⟩ | ⟨-, -, he⟩
    · rw [he] at h; cases h
      exact .inr (.inr (.inr (.inl ⟨_, rfl, trivial, hf⟩)))
    · rw [he] at h; cases h
  case indirect =>
    split at h
    · rename_i h0
      rcases streamNext_cases s with ⟨hf, he⟩ | ⟨-, -, -, he⟩
      · rw [he] at h; cases h; exact .inr (.inl ⟨rfl, if_pos h0, hf⟩)
      · rw [he] at h; cases h
    · rename_i h0
      cases h; exact .inr (.inr (.inl ⟨_, rfl, if_neg h0⟩))
  case indirectIncrement =>
    split at h
    · rename_i h0
      rcases streamNext_cases s with ⟨hf, he⟩ | ⟨-, -, -, he⟩
      · rw [he] at h; cases h; exact .inr (.inl ⟨rfl, if_pos h0, hf⟩)
      · rw [he] at h; cases h
    · rename_i h0
      cases h
      exact .inr (.inr (.inr (.inr ⟨_, _, rfl, if_neg h0, trivial, h0⟩)))
  case absoluteAddressing =>
    rcases streamNext_cases s with ⟨hf, he⟩ | ⟨-, -, -, he⟩
    · rw [he] at h; cases h
      exact .inr (.inr (.inr (.inl ⟨_, rfl, trivial, hf⟩)))
    · rw [he] at h; cases h
  all_goals (cases h; exact .inl ⟨rfl, trivial⟩)

/-- The two ways a destination leaves the context: as it was, or one stream word on (40_operand_resolver.md R100, R106). -/
theorem resolveDestination_context {op : OperandRef} {s : State} {loc : Location} {t : State}
    (h : resolveDestination op s = .ok (loc, t)) :
    (t = s ∧ op.extWords = 0) ∨ (t = s.afterStream ∧ op.extWords = 1 ∧ StreamFits 1 s) := by
  rcases op with ⟨r, m⟩
  cases m <;> simp only [resolveDestination, OperandRef.extWords] at h ⊢
  case indexed =>
    rcases resolveIndexed_cases r s with ⟨hf, -, he⟩ | ⟨-, -, he⟩
    · rw [he] at h; cases h; exact .inr ⟨rfl, trivial, hf⟩
    · rw [he] at h; cases h
  case absoluteAddressing =>
    rcases streamNext_cases s with ⟨hf, he⟩ | ⟨-, -, -, he⟩
    · rw [he] at h; cases h; exact .inr ⟨rfl, trivial, hf⟩
    · rw [he] at h; cases h
  case direct => cases h; exact .inl ⟨rfl, trivial⟩
  case const0 => cases h; exact .inl ⟨rfl, trivial⟩
  all_goals cases h

/-- The accesses of a source: its extension word, then its data read (20_memory.md R42). -/
theorem resolveSource_events {op : OperandRef} {s : State} {v : Word} {t : State} (h : resolveSource op s = .ok (v, t)) :
    t.ev = s.ev ++ (extFetches op.extWords s.pc ++ dataReads (some op) s) := by
  rcases op with ⟨r, m⟩
  cases m <;> simp only [resolveSource, readAt, extFetches, dataReads, readAddress, OperandRef.extWords] at h ⊢
  case indexed =>
    rcases resolveIndexed_cases r s with ⟨-, -, he⟩ | ⟨-, -, he⟩ <;> rw [he] at h <;> cases h
    simp
  case indirect =>
    split at h
    · rename_i h0
      rcases streamNext_cases s with ⟨-, he⟩ | ⟨-, -, -, he⟩ <;> rw [he] at h <;> cases h
      simp [h0]
    · rename_i h0; cases h; simp [h0]
  case indirectIncrement =>
    split at h
    · rename_i h0
      rcases streamNext_cases s with ⟨-, he⟩ | ⟨-, -, -, he⟩ <;> rw [he] at h <;> cases h
      simp [h0]
    · rename_i h0; cases h; simp [h0]
  case absoluteAddressing =>
    rcases streamNext_cases s with ⟨-, he⟩ | ⟨-, -, -, he⟩ <;> rw [he] at h <;> cases h
    simp
  all_goals (cases h; simp)

/-- The accesses of a destination: its extension word (20_memory.md R42, 40_operand_resolver.md R100). -/
theorem resolveDestination_events {op : OperandRef} {s : State} {loc : Location} {t : State}
    (h : resolveDestination op s = .ok (loc, t)) : t.ev = s.ev ++ extFetches op.extWords s.pc := by
  rcases resolveDestination_context h with ⟨rfl, hn⟩ | ⟨rfl, hn, -⟩ <;> simp [extFetches, hn]

/-- What no source changes. -/
theorem resolveSource_keeps {op : OperandRef} {s : State} {v : Word} {t : State} (h : resolveSource op s = .ok (v, t)) :
    t.params = s.params ∧ t.mem = s.mem ∧ t.handoff = s.handoff ∧ t.freeIdx = s.freeIdx ∧ t.regs[3] = s.regs[3] := by
  rcases resolveSource_context h with ⟨rfl, -⟩ | ⟨rfl, -, -⟩ | ⟨a, rfl, -⟩ | ⟨a, rfl, -, -⟩ | ⟨a, w, rfl, -, -, -⟩ <;> simp

/-- What no destination changes. -/
theorem resolveDestination_keeps {op : OperandRef} {s : State} {loc : Location} {t : State}
    (h : resolveDestination op s = .ok (loc, t)) :
    t.params = s.params ∧ t.mem = s.mem ∧ t.handoff = s.handoff ∧ t.freeIdx = s.freeIdx ∧ t.regs[3] = s.regs[3] := by
  rcases resolveDestination_context h with ⟨rfl, -⟩ | ⟨rfl, -, -⟩ <;> simp

/-- A source changes the pc and the register it steps, and no other (10_state.md R21). -/
theorem resolveSource_regs {op : OperandRef} {s : State} {v : Word} {t : State} (h : resolveSource op s = .ok (v, t)) :
    SameRegsExcept (0 :: steppedRegs op) s t := by
  have stream : SameRegsExcept (0 :: steppedRegs op) s s.afterStream :=
    (SameRegsExcept.afterStream s).mono (by simp)
  rcases resolveSource_context h with ⟨rfl, -⟩ | ⟨rfl, -, -⟩ | ⟨a, rfl, -⟩ | ⟨a, rfl, -, -⟩ | ⟨a, w, rfl, -, hm, -⟩
  · exact SameRegsExcept.refl _ _
  · exact stream
  · exact fun _ _ => rfl
  · exact stream
  · intro r hr
    simp only [steppedRegs, hm, if_true, List.mem_cons, List.not_mem_nil, or_false, not_or] at hr
    rw [State.readReg_writeReg_other _ _ _ _ hr.2, State.readReg_afterRead]

/-- A destination changes the pc and no other register (10_state.md R21). -/
theorem resolveDestination_regs {op : OperandRef} {s : State} {loc : Location} {t : State}
    (h : resolveDestination op s = .ok (loc, t)) : SameRegsExcept [0] s t := by
  rcases resolveDestination_context h with ⟨rfl, -⟩ | ⟨rfl, -, -⟩
  · exact SameRegsExcept.refl _ _
  · exact SameRegsExcept.afterStream s

/-- Everything a pair of operands can answer (43_double_operand.md R133). -/
theorem resolveDouble_of_fits {src dst : OperandRef} {s : State} (h : DoubleFits src dst s) :
    ∃ v loc s1 s2, resolveSource src s = .ok (v, s1) ∧ resolveDestination dst s1 = .ok (loc, s2) ∧
      resolveDouble src dst s = .ok ((v, loc), s2) := by
  obtain ⟨hs, hl, hd⟩ := h
  obtain ⟨v, s1, e1⟩ := resolveSource_of_fits hs
  have : afterSource src s = s1 := by simp only [afterSource, e1]
  rw [this] at hd
  obtain ⟨loc, s2, e2⟩ := resolveDestination_of_fits hl hd
  exact ⟨v, loc, s1, s2, e1, e2, by simp only [resolveDouble, e1, e2]⟩

/-- A pair of operands that resolves did so one after the other. -/
theorem resolveDouble_ok {src dst : OperandRef} {s : State} {v : Word} {loc : Location} {s2 : State}
    (h : resolveDouble src dst s = .ok ((v, loc), s2)) :
    ∃ s1, resolveSource src s = .ok (v, s1) ∧ resolveDestination dst s1 = .ok (loc, s2) := by
  unfold resolveDouble at h
  split at h
  · cases h
  · rename_i v' s1 e1
    split at h
    · cases h
    · rename_i loc' s2' e2
      cases h
      exact ⟨s1, e1, e2⟩

end Sys2Proof.Machine
end

