-- ==== Sys2Proof/Laws/ExecutionLayer.lean ====
section
/-! SUPPORT. What the execution layer leaves unchanged, and that it keeps the machine's invariant. -/

namespace Sys2Proof.Machine

section
variable (s : State) (loc : Location) (b : Bool) (v : Word)

@[simp] theorem layerFlags_params : (layerFlags s).params = s.params := by simp [layerFlags]
@[simp] theorem layerFlags_mem : (layerFlags s).mem = s.mem := by simp [layerFlags]
@[simp] theorem layerFlags_ev : (layerFlags s).ev = s.ev := by simp [layerFlags]
@[simp] theorem layerFlags_handoff : (layerFlags s).handoff = s.handoff := by simp [layerFlags]
@[simp] theorem layerFlags_zeroCell : (layerFlags s).regs[3] = s.regs[3] := by simp [layerFlags]
@[simp] theorem layerFlags_regs_other (r : Reg) (h : r ≠ 2) : (layerFlags s).readReg r = s.readReg r := by
  simp [layerFlags, h]
@[simp] theorem layerFlags_pc : (layerFlags s).pc = s.pc := layerFlags_regs_other s 0 (by decide)

@[simp] theorem layerResult_params : (layerResult loc s).params = s.params := by simp [layerResult]
@[simp] theorem layerResult_ev : (layerResult loc s).ev = s.ev := by simp [layerResult]
@[simp] theorem layerResult_handoff : (layerResult loc s).handoff = s.handoff := by simp [layerResult]
@[simp] theorem layerResult_zeroCell : (layerResult loc s).regs[3] = s.regs[3] := by simp [layerResult]

@[simp] theorem layerStack_params : (layerStack s).params = s.params := by simp [layerStack]
@[simp] theorem layerStack_ev : (layerStack s).ev = s.ev := by simp [layerStack]
@[simp] theorem layerStack_handoff : (layerStack s).handoff = s.handoff := by simp [layerStack]
@[simp] theorem layerStack_zeroCell : (layerStack s).regs[3] = s.regs[3] := by simp [layerStack]
@[simp] theorem layerStack_mem : (layerStack s).mem = s.mem.setWord (s.freeWord 1) (s.freeWord 2) := by simp [layerStack]
@[simp] theorem layerStack_regs_other (r : Reg) (h : r ≠ 1) : (layerStack s).readReg r = s.readReg r := by
  simp [layerStack, h]

@[simp] theorem layerPc_params : (layerPc s).params = s.params := by simp [layerPc]
@[simp] theorem layerPc_mem : (layerPc s).mem = s.mem := by simp [layerPc]
@[simp] theorem layerPc_ev : (layerPc s).ev = s.ev := by simp [layerPc]
@[simp] theorem layerPc_handoff : (layerPc s).handoff = s.handoff := by simp [layerPc]
@[simp] theorem layerPc_zeroCell : (layerPc s).regs[3] = s.regs[3] := by simp [layerPc]
@[simp] theorem layerPc_regs_other (r : Reg) (h : r ≠ 0) : (layerPc s).readReg r = s.readReg r := by simp [layerPc, h]

@[simp] theorem layerPop_params : (layerPop s).params = s.params := by simp [layerPop]
@[simp] theorem layerPop_mem : (layerPop s).mem = s.mem := by simp [layerPop]
@[simp] theorem layerPop_ev : (layerPop s).ev = s.ev := by simp [layerPop]
@[simp] theorem layerPop_handoff : (layerPop s).handoff = s.handoff := by simp [layerPop]
@[simp] theorem layerPop_zeroCell : (layerPop s).regs[3] = s.regs[3] := by simp [layerPop]
@[simp] theorem layerPop_regs_other (r : Reg) (h : r ≠ 1) : (layerPop s).readReg r = s.readReg r := by simp [layerPop, h]

@[simp] theorem layerRetiPc_params : (layerRetiPc s).params = s.params := by unfold layerRetiPc; split <;> simp
@[simp] theorem layerRetiPc_mem : (layerRetiPc s).mem = s.mem := by unfold layerRetiPc; split <;> simp
@[simp] theorem layerRetiPc_ev : (layerRetiPc s).ev = s.ev := by unfold layerRetiPc; split <;> simp
@[simp] theorem layerRetiPc_handoff : (layerRetiPc s).handoff = s.handoff := by unfold layerRetiPc; split <;> simp
@[simp] theorem layerRetiPc_zeroCell : (layerRetiPc s).regs[3] = s.regs[3] := by unfold layerRetiPc; split <;> simp
@[simp] theorem layerRetiPc_regs_other (r : Reg) (h : r ≠ 0) : (layerRetiPc s).readReg r = s.readReg r := by
  unfold layerRetiPc; split <;> simp [h]

/-- Where the layer leaves the pc, RETI does (41_single_operand.md R117). -/
theorem layerReti_pc (h : s.params.retiPc = .followingWord) : (layerReti s).pc = s.pc := by
  simp [layerReti, layerRetiPc, h, layerPop]

@[simp] theorem layerMov_word : layerMov false v loc s = s.writeLoc loc v := rfl
@[simp] theorem layerMov_byte : layerMov true v loc s = layerResult loc s := rfl

/-- A free result changes the location's register and the status word only. -/
theorem layerResult_regs : SameRegsExcept (2 :: loc.regs) s (layerResult loc s) := by
  intro r hr
  simp only [List.mem_cons, not_or] at hr
  cases loc with
  | reg n =>
    have hn : r ≠ n := by simpa [Location.regs] using hr.2
    simp [layerResult, hr.1, hn]
  | mem a => simp [layerResult, hr.1]

/-- A free result stores at most at its own location. -/
theorem layerResult_memory : SameMemoryExceptAt loc s (layerResult loc s) := by
  cases loc with
  | reg n => exact SameMemory.of_eq (by simp [layerResult])
  | mem a => exact fun a' h => by simp [layerResult, h]

end

/-! ### The invariant -/

theorem State.Inv.of_eq {s t : State} (h : s.Inv) (hm : t.mem = s.mem) (hz : t.regs[3] = s.regs[3]) : t.Inv :=
  ⟨hm ▸ h.1, hz ▸ h.2⟩

theorem State.Inv.writeLoc {s : State} (h : s.Inv) (loc : Location) (v : Word) : (s.writeLoc loc v).Inv := by
  refine ⟨?_, by rw [State.writeLoc_zeroCell]; exact h.2⟩
  cases loc with
  | reg n => simpa using h.1
  | mem a => exact Memory.wf_setWord a v h.1

theorem State.Inv.layerFlags {s : State} (h : s.Inv) : (layerFlags s).Inv := h.of_eq (by simp) (by simp)

theorem State.Inv.layerResult {s : State} (h : s.Inv) (loc : Location) : (layerResult loc s).Inv :=
  State.Inv.layerFlags ((h.writeLoc loc _).of_eq rfl rfl)

theorem State.Inv.layerStack {s : State} (h : s.Inv) : (layerStack s).Inv :=
  ⟨by rw [layerStack_mem]; exact Memory.wf_setWord _ _ h.1, by rw [layerStack_zeroCell]; exact h.2⟩

theorem State.Inv.layerPc {s : State} (h : s.Inv) : (layerPc s).Inv := h.of_eq (by simp) (by simp)

theorem State.Inv.layerRetiPc {s : State} (h : s.Inv) : (layerRetiPc s).Inv := h.of_eq (by simp) (by simp)

theorem State.Inv.layerPop {s : State} (h : s.Inv) : (layerPop s).Inv := h.of_eq (by simp) (by simp)

end Sys2Proof.Machine
end

