-- ==== Sys2Proof/Laws/Exec.lean ====
section
/-! SUPPORT. `exec` of each instruction as its family's shared operation, and everything `exec` can answer. -/

namespace Sys2Proof.Machine

section
variable (s : State) (b : Bool) (src dst : OperandRef) (offset : Word)

@[simp] theorem exec_rrc : exec (.rrc b dst) s = runDestination .rrc b dst s := rfl
@[simp] theorem exec_swpb : exec (.swpb b dst) s = runDestination .swpb b dst s := rfl
@[simp] theorem exec_rra : exec (.rra b dst) s = runDestination .rra b dst s := rfl
@[simp] theorem exec_sxt : exec (.sxt b dst) s = runDestination .sxt b dst s := rfl
@[simp] theorem exec_push : exec (.push b dst) s = execPush b dst s := rfl
@[simp] theorem exec_call : exec (.call b dst) s = execCall b dst s := rfl
@[simp] theorem exec_reti : exec (.reti b dst) s = execReti b dst s := rfl
@[simp] theorem exec_jne : exec (.jne offset) s = runJump .notEqual offset s := rfl
@[simp] theorem exec_jeq : exec (.jeq offset) s = runJump .equal offset s := rfl
@[simp] theorem exec_jnc : exec (.jnc offset) s = runJump .lower offset s := rfl
@[simp] theorem exec_jc : exec (.jc offset) s = runJump .carrySet offset s := rfl
@[simp] theorem exec_jn : exec (.jn offset) s = runJump .negative offset s := rfl
@[simp] theorem exec_jge : exec (.jge offset) s = runJump .greaterOrEqual offset s := rfl
@[simp] theorem exec_jl : exec (.jl offset) s = runJump .lessThan offset s := rfl
@[simp] theorem exec_jmp : exec (.jmp offset) s = runJump .always offset s := rfl
@[simp] theorem exec_mov : exec (.mov src b dst) s = execMov src b dst s := rfl
@[simp] theorem exec_add : exec (.add src b dst) s = runWriting .add src b dst s := rfl
@[simp] theorem exec_addc : exec (.addc src b dst) s = runWriting .addc src b dst s := rfl
@[simp] theorem exec_subc : exec (.subc src b dst) s = runWriting .subc src b dst s := rfl
@[simp] theorem exec_sub : exec (.sub src b dst) s = runWriting .sub src b dst s := rfl
@[simp] theorem exec_cmp : exec (.cmp src b dst) s = runReading .cmp src b dst s := rfl
@[simp] theorem exec_dadd : exec (.dadd src b dst) s = runWriting .dadd src b dst s := rfl
@[simp] theorem exec_bit : exec (.bit src b dst) s = runReading .bit src b dst s := rfl
@[simp] theorem exec_bic : exec (.bic src b dst) s = runWriting .bic src b dst s := rfl
@[simp] theorem exec_bis : exec (.bis src b dst) s = runWriting .bis src b dst s := rfl
@[simp] theorem exec_xor : exec (.xor src b dst) s = runWriting .xor src b dst s := rfl
@[simp] theorem exec_and : exec (.and src b dst) s = runWriting .and src b dst s := rfl

theorem exec_mkJump (c : Cond) : exec (mkJump c offset) s = runJump c offset s := by cases c <;> rfl

end

/-! ### What each shared operation can answer -/

/-- Everything a jump can answer (42_jump.md R120). -/
theorem runJump_cases (c : Cond) (offset : Word) (s : State) :
    (evaluateCondition c s.status = false ∧ runJump c offset s = .next s) ∨
    (evaluateCondition c s.status = true ∧ SumFits s.params s.pc offset ∧
      runJump c offset s = .next (s.setPc (s.pc + offset))) ∨
    (evaluateCondition c s.status = true ∧ ¬ SumFits s.params s.pc offset ∧ s.params.addrOverflow = .fault ∧
      runJump c offset s = .fault (.raised (.addressOverflow ((s.pc.toNat : Int) + offset.toInt)) s)) := by
  unfold runJump
  cases hc : evaluateCondition c s.status
  · exact .inl ⟨rfl, rfl⟩
  · rcases effectiveAddress_cases s.params s.pc offset with ⟨hf, he⟩ | ⟨hf, hp, he⟩
    · exact .inr (.inl ⟨rfl, hf, by rw [he]⟩)
    · exact .inr (.inr ⟨rfl, hf, hp, by rw [he]; rfl⟩)

/-- Everything a destination-role opcode can answer. -/
theorem runDestination_cases (o : SingleOp) (b : Bool) (dst : OperandRef) (s : State) :
    (∃ loc s1, resolveDestination dst s = .ok (loc, s1) ∧
      runDestination o b dst s = .next (layerResult loc (s1.handOver ⟨.single o, b, .location loc⟩))) ∨
    (∃ e, resolveDestination dst s = .error e ∧ runDestination o b dst s = .fault (.raised e s)) := by
  unfold runDestination
  rcases h : resolveDestination dst s with e | ⟨loc, s1⟩
  · exact .inr ⟨e, rfl, rfl⟩
  · exact .inl ⟨loc, s1, rfl, rfl⟩

/-- Everything PUSH can answer. -/
theorem execPush_cases (b : Bool) (dst : OperandRef) (s : State) :
    (∃ v s1, resolveSource dst s = .ok (v, s1) ∧
      execPush b dst s = .next (layerPush (s1.handOver ⟨.single .push, b, .value v⟩))) ∨
    (∃ e, resolveSource dst s = .error e ∧ execPush b dst s = .fault (.raised e s)) := by
  unfold execPush
  rcases h : resolveSource dst s with e | ⟨v, s1⟩
  · exact .inr ⟨e, rfl, rfl⟩
  · exact .inl ⟨v, s1, rfl, rfl⟩

/-- Everything CALL can answer. -/
theorem execCall_cases (b : Bool) (dst : OperandRef) (s : State) :
    (∃ v s1, resolveSource dst s = .ok (v, s1) ∧
      execCall b dst s = .next (layerCall (s1.handOver ⟨.single .call, b, .value v⟩))) ∨
    (∃ e, resolveSource dst s = .error e ∧ execCall b dst s = .fault (.raised e s)) := by
  unfold execCall
  rcases h : resolveSource dst s with e | ⟨v, s1⟩
  · exact .inr ⟨e, rfl, rfl⟩
  · exact .inl ⟨v, s1, rfl, rfl⟩

/-- Everything a pair of operands can answer (43_double_operand.md R133). -/
theorem resolveDouble_cases (src dst : OperandRef) (s : State) :
    (∃ v loc s1 s2, resolveSource src s = .ok (v, s1) ∧ resolveDestination dst s1 = .ok (loc, s2) ∧
      resolveDouble src dst s = .ok ((v, loc), s2)) ∨
    (∃ e, (resolveSource src s = .error e ∨
        ∃ v s1, resolveSource src s = .ok (v, s1) ∧ resolveDestination dst s1 = .error e) ∧
      resolveDouble src dst s = .error e) := by
  unfold resolveDouble
  rcases h : resolveSource src s with e | ⟨v, s1⟩
  · exact .inr ⟨e, .inl rfl, rfl⟩
  · rcases h' : resolveDestination dst s1 with e | ⟨loc, s2⟩
    · exact .inr ⟨e, .inr ⟨v, s1, rfl, h'⟩, by simp only [h']⟩
    · exact .inl ⟨v, loc, s1, s2, rfl, h', by simp only [h']⟩

/-- The instruction resolves a pair of operands, hands them over and lets one of the three execution layers of its format act; a
resolution that fails leaves the context. -/
def RunsAsDouble (i : Instr) : Prop :=
  ∃ (src dst : OperandRef) (o : DoubleOp) (b : Bool) (layer : Word → Location → State → State),
    i = mkDouble o src b dst ∧
    (∀ s, (∀ e, resolveDouble src dst s = .error e → exec i s = .fault (.raised e s)) ∧
      (∀ v loc s2, resolveDouble src dst s = .ok ((v, loc), s2) →
        exec i s = .next (layer v loc (s2.handOver ⟨.double o, b, .both v loc⟩)))) ∧
    ((layer = fun _ loc s => layerResult loc s) ∨ (layer = fun _ _ s => layerFlags s) ∨
      (layer = fun v loc s => s.writeLoc loc v))

/-- Every double-operand instruction does so. -/
theorem exec_double {i : Instr} (h : i.format = .doubleOperand) : RunsAsDouble i := by
  have writing : ∀ o src b dst, (∀ s, exec i s = runWriting o src b dst s) → i = mkDouble o src b dst → RunsAsDouble i :=
    fun o src b dst he hi => ⟨src, dst, o, b, fun _ loc s => layerResult loc s, hi,
      fun s => ⟨fun e h => by simp only [he, runWriting, h]; rfl, fun v loc s2 h => by simp only [he, runWriting, h]⟩,
      .inl rfl⟩
  have reading : ∀ o src b dst, (∀ s, exec i s = runReading o src b dst s) → i = mkDouble o src b dst → RunsAsDouble i :=
    fun o src b dst he hi => ⟨src, dst, o, b, fun _ _ s => layerFlags s, hi,
      fun s => ⟨fun e h => by simp only [he, runReading, h]; rfl, fun v loc s2 h => by simp only [he, runReading, h]⟩,
      .inr (.inl rfl)⟩
  cases i <;> cases h
  case mov src b dst =>
    cases b
    · exact ⟨src, dst, .mov, false, fun v loc s => s.writeLoc loc v, rfl,
        fun s => ⟨fun e h => by simp only [exec_mov, execMov, h]; rfl,
          fun v loc s2 h => by simp only [exec_mov, execMov, h, layerMov_word]⟩, .inr (.inr rfl)⟩
    · exact ⟨src, dst, .mov, true, fun _ loc s => layerResult loc s, rfl,
        fun s => ⟨fun e h => by simp only [exec_mov, execMov, h]; rfl,
          fun v loc s2 h => by simp only [exec_mov, execMov, h, layerMov_byte]⟩, .inl rfl⟩
  case cmp src b dst => exact reading .cmp src b dst (fun _ => rfl) rfl
  case bit src b dst => exact reading .bit src b dst (fun _ => rfl) rfl
  case add src b dst => exact writing .add src b dst (fun _ => rfl) rfl
  case addc src b dst => exact writing .addc src b dst (fun _ => rfl) rfl
  case subc src b dst => exact writing .subc src b dst (fun _ => rfl) rfl
  case sub src b dst => exact writing .sub src b dst (fun _ => rfl) rfl
  case dadd src b dst => exact writing .dadd src b dst (fun _ => rfl) rfl
  case bic src b dst => exact writing .bic src b dst (fun _ => rfl) rfl
  case bis src b dst => exact writing .bis src b dst (fun _ => rfl) rfl
  case xor src b dst => exact writing .xor src b dst (fun _ => rfl) rfl
  case and src b dst => exact writing .and src b dst (fun _ => rfl) rfl

/-- Everything `exec` can answer by going on. -/
theorem exec_next {i : Instr} {s t : State} (h : exec i s = .next t) :
    (i.format = .jump ∧ (t = s ∨ ∃ target, t = s.setPc target)) ∨
    (∃ b dst, i = .reti b dst ∧ t = layerReti (s.handOver ⟨.single .reti, b, .nothing⟩)) ∨
    (∃ op v s1 ho, (sourceOperand i = some op ∧ destinationOperand i = none) ∧ resolveSource op s = .ok (v, s1) ∧
      (t = layerPush (s1.handOver ho) ∨ t = layerCall (s1.handOver ho))) ∨
    (∃ op loc s1 ho, (sourceOperand i = none ∧ destinationOperand i = some op) ∧ resolveDestination op s = .ok (loc, s1) ∧
      t = layerResult loc (s1.handOver ho)) ∨
    (∃ src dst v loc s1 s2 ho, (sourceOperand i = some src ∧ destinationOperand i = some dst) ∧
      resolveSource src s = .ok (v, s1) ∧
      resolveDestination dst s1 = .ok (loc, s2) ∧
      (t = layerResult loc (s2.handOver ho) ∨ t = layerFlags (s2.handOver ho) ∨ t = (s2.handOver ho).writeLoc loc v)) := by
  have jump : ∀ c offset, runJump c offset s = .next t → t = s ∨ ∃ target, t = s.setPc target := by
    intro c offset h
    rcases runJump_cases c offset s with ⟨-, he⟩ | ⟨-, -, he⟩ | ⟨-, -, -, he⟩ <;> rw [he] at h <;> cases h
    · exact .inl rfl
    · exact .inr ⟨_, rfl⟩
  have dest : ∀ o b dst, sourceOperand i = none ∧ destinationOperand i = some dst → runDestination o b dst s = .next t →
      ∃ op loc s1 ho, (sourceOperand i = none ∧ destinationOperand i = some op) ∧ resolveDestination op s = .ok (loc, s1) ∧
        t = layerResult loc (s1.handOver ho) := by
    intro o b dst hm h
    rcases runDestination_cases o b dst s with ⟨loc, s1, e1, he⟩ | ⟨e, -, he⟩ <;> rw [he] at h <;> cases h
    exact ⟨dst, loc, s1, _, hm, e1, rfl⟩
  by_cases hd : i.format = .doubleOperand
  · obtain ⟨src, dst, o, b, layer, hi, hex, hl⟩ := exec_double hd
    refine .inr (.inr (.inr (.inr ?_)))
    rcases resolveDouble_cases src dst s with ⟨v, loc, s1, s2, e1, e2, e3⟩ | ⟨e, -, e3⟩
    · rw [(hex s).2 v loc s2 e3] at h
      cases h
      refine ⟨src, dst, v, loc, s1, s2, ⟨.double o, b, .both v loc⟩, ?_, e1, e2, ?_⟩
      · subst hi; cases o <;> exact ⟨rfl, rfl⟩
      · rcases hl with rfl | rfl | rfl
        · exact .inl rfl
        · exact .inr (.inl rfl)
        · exact .inr (.inr rfl)
    · rw [(hex s).1 e e3] at h; cases h
  · cases i <;> first | exact absurd rfl hd | skip
    case push b dst =>
      rcases execPush_cases b dst s with ⟨v, s1, e1, he⟩ | ⟨e, -, he⟩ <;> rw [exec_push, he] at h <;> cases h
      exact .inr (.inr (.inl ⟨dst, v, s1, _, ⟨rfl, rfl⟩, e1, .inl rfl⟩))
    case call b dst =>
      rcases execCall_cases b dst s with ⟨v, s1, e1, he⟩ | ⟨e, -, he⟩ <;> rw [exec_call, he] at h <;> cases h
      exact .inr (.inr (.inl ⟨dst, v, s1, _, ⟨rfl, rfl⟩, e1, .inr rfl⟩))
    case reti b dst =>
      rw [exec_reti] at h; cases h
      exact .inr (.inl ⟨b, dst, rfl, rfl⟩)
    case rrc b dst => exact .inr (.inr (.inr (.inl (dest _ _ dst ⟨rfl, rfl⟩ h))))
    case swpb b dst => exact .inr (.inr (.inr (.inl (dest _ _ dst ⟨rfl, rfl⟩ h))))
    case rra b dst => exact .inr (.inr (.inr (.inl (dest _ _ dst ⟨rfl, rfl⟩ h))))
    case sxt b dst => exact .inr (.inr (.inr (.inl (dest _ _ dst ⟨rfl, rfl⟩ h))))
    all_goals
      simp only [exec_jne, exec_jeq, exec_jnc, exec_jc, exec_jn, exec_jge, exec_jl, exec_jmp] at h
      exact .inl ⟨rfl, jump _ _ h⟩

/-- `exec` fails with the context it was given and with no other, and never refuses. -/
theorem exec_not_next {i : Instr} {s : State} :
    (∃ t, exec i s = .next t) ∨ ∃ info, exec i s = .fault (.raised info s) := by
  have jump : ∀ c offset, (∃ t, runJump c offset s = .next t) ∨ ∃ info, runJump c offset s = .fault (.raised info s) := by
    intro c offset
    rcases runJump_cases c offset s with ⟨-, he⟩ | ⟨-, -, he⟩ | ⟨-, -, -, he⟩
    · exact .inl ⟨_, he⟩
    · exact .inl ⟨_, he⟩
    · exact .inr ⟨_, he⟩
  have dest : ∀ o b dst, (∃ t, runDestination o b dst s = .next t) ∨
      ∃ info, runDestination o b dst s = .fault (.raised info s) := by
    intro o b dst
    rcases runDestination_cases o b dst s with ⟨loc, s1, -, he⟩ | ⟨e, -, he⟩
    · exact .inl ⟨_, he⟩
    · exact .inr ⟨_, he⟩
  by_cases hd : i.format = .doubleOperand
  · obtain ⟨src, dst, o, b, layer, -, hex, -⟩ := exec_double hd
    rcases resolveDouble_cases src dst s with ⟨v, loc, s1, s2, -, -, e3⟩ | ⟨e, -, e3⟩
    · exact .inl ⟨_, (hex s).2 v loc s2 e3⟩
    · exact .inr ⟨_, (hex s).1 e e3⟩
  · cases i <;> first | exact absurd rfl hd | skip
    case push b dst =>
      rcases execPush_cases b dst s with ⟨v, s1, -, he⟩ | ⟨e, -, he⟩
      · exact .inl ⟨_, he⟩
      · exact .inr ⟨_, he⟩
    case call b dst =>
      rcases execCall_cases b dst s with ⟨v, s1, -, he⟩ | ⟨e, -, he⟩
      · exact .inl ⟨_, he⟩
      · exact .inr ⟨_, he⟩
    case reti b dst => exact .inl ⟨_, rfl⟩
    case rrc b dst => exact dest _ _ dst
    case swpb b dst => exact dest _ _ dst
    case rra b dst => exact dest _ _ dst
    case sxt b dst => exact dest _ _ dst
    all_goals
      simp only [exec_jne, exec_jeq, exec_jnc, exec_jc, exec_jn, exec_jge, exec_jl, exec_jmp]
      exact jump _ _

/-! ### The step -/

/-- Everything a step can answer: the fetch fails, the decoder fails, or `exec` runs the decoded instruction in ctx0
(70_reset_and_hazards.md R170). -/
theorem step_cases (s : State) :
    (¬ StreamFits 1 s ∧ s.params.addrOverflow = .fault ∧ s.pc = 0xFFFF ∧
      step s = .fault (.raised (.addressOverflow 0xFFFF) s)) ∨
    (StreamFits 1 s ∧ ∃ u, decode s.params (s.mem.word s.pc) = .error u ∧
      step s = .fault (.raised (unknownOpcodeFault u) s.clearHandoff.afterStream)) ∨
    (StreamFits 1 s ∧ ∃ i, decode s.params (s.mem.word s.pc) = .ok i ∧
      step s = exec i s.clearHandoff.afterStream) := by
  unfold step
  rcases fetchInstruction_cases s with ⟨hf, he⟩ | ⟨hf, hp, hpc, he⟩
  · rw [he]
    simp only [State.afterStream_params, State.clearHandoff_params]
    rcases hd : decode s.params (s.mem.word s.pc) with u | i
    · exact .inr (.inl ⟨hf, u, rfl, rfl⟩)
    · exact .inr (.inr ⟨hf, i, rfl, rfl⟩)
  · rw [he]
    exact .inl ⟨hf, hp, hpc, rfl⟩

end Sys2Proof.Machine
end

