-- ==== Sys2Proof/Laws/PerInstr.lean ====
section
/-! SUPPORT. The per-instruction family WordFormat: a well-formed instruction's word has the instruction's format, under every
setting of the OPEN parameters (30_encoding.md R48 to R50, R73). -/

namespace Sys2Proof.Laws.WordFormat

/-- The classifier gives the instruction's format to its encoding. -/
def Statement (i : Instr) : Prop :=
  ∀ p : Config.Params, i.wellFormed p = true → classify p.reading (encode p i) = i.format

theorem rrc (b : Bool) (dst : OperandRef) : Statement (.rrc b dst) :=
  fun p _ => classify_encodeSingle p .rrc b dst

theorem swpb (b : Bool) (dst : OperandRef) : Statement (.swpb b dst) :=
  fun p _ => classify_encodeSingle p .swpb b dst

theorem rra (b : Bool) (dst : OperandRef) : Statement (.rra b dst) :=
  fun p _ => classify_encodeSingle p .rra b dst

theorem sxt (b : Bool) (dst : OperandRef) : Statement (.sxt b dst) :=
  fun p _ => classify_encodeSingle p .sxt b dst

theorem push (b : Bool) (dst : OperandRef) : Statement (.push b dst) :=
  fun p _ => classify_encodeSingle p .push b dst

theorem call (b : Bool) (dst : OperandRef) : Statement (.call b dst) :=
  fun p _ => classify_encodeSingle p .call b dst

theorem reti (b : Bool) (dst : OperandRef) : Statement (.reti b dst) :=
  fun p _ => classify_encodeSingle p .reti b dst

theorem jne (offset : Word) : Statement (.jne offset) := by
  intro p h
  refine classify_encodeJump p .notEqual offset (.inr ?_)
  simp only [Instr.wellFormed, Bool.and_eq_true, bne_iff_ne] at h
  exact h.2

theorem jeq (offset : Word) : Statement (.jeq offset) :=
  fun p _ => classify_encodeJump p .equal offset (.inl (by decide))

theorem jnc (offset : Word) : Statement (.jnc offset) :=
  fun p _ => classify_encodeJump p .lower offset (.inl (by decide))

theorem jc (offset : Word) : Statement (.jc offset) :=
  fun p _ => classify_encodeJump p .carrySet offset (.inl (by decide))

theorem jn (offset : Word) : Statement (.jn offset) :=
  fun p _ => classify_encodeJump p .negative offset (.inl (by decide))

theorem jge (offset : Word) : Statement (.jge offset) :=
  fun p _ => classify_encodeJump p .greaterOrEqual offset (.inl (by decide))

theorem jl (offset : Word) : Statement (.jl offset) :=
  fun p _ => classify_encodeJump p .lessThan offset (.inl (by decide))

theorem jmp (offset : Word) : Statement (.jmp offset) :=
  fun p _ => classify_encodeJump p .always offset (.inl (by decide))

theorem mov (src : OperandRef) (b : Bool) (dst : OperandRef) : Statement (.mov src b dst) :=
  fun p _ => classify_encodeDouble p .mov src b dst (.inl (by decide))

theorem add (src : OperandRef) (b : Bool) (dst : OperandRef) : Statement (.add src b dst) :=
  fun p _ => classify_encodeDouble p .add src b dst (.inl (by decide))

theorem addc (src : OperandRef) (b : Bool) (dst : OperandRef) : Statement (.addc src b dst) :=
  fun p _ => classify_encodeDouble p .addc src b dst (.inl (by decide))

theorem subc (src : OperandRef) (b : Bool) (dst : OperandRef) : Statement (.subc src b dst) :=
  fun p _ => classify_encodeDouble p .subc src b dst (.inl (by decide))

theorem sub (src : OperandRef) (b : Bool) (dst : OperandRef) : Statement (.sub src b dst) := by
  intro p h
  refine classify_encodeDouble p .sub src b dst (.inr ?_)
  simp only [Instr.wellFormed, Bool.and_eq_true, bne_iff_ne] at h
  exact h.2

theorem cmp (src : OperandRef) (b : Bool) (dst : OperandRef) : Statement (.cmp src b dst) := by
  intro p h
  refine classify_encodeDouble p .cmp src b dst (.inr ?_)
  simp only [Instr.wellFormed, Bool.and_eq_true, bne_iff_ne] at h
  exact h.2

theorem dadd (src : OperandRef) (b : Bool) (dst : OperandRef) : Statement (.dadd src b dst) :=
  fun p _ => classify_encodeDouble p .dadd src b dst (.inl (by decide))

theorem bit (src : OperandRef) (b : Bool) (dst : OperandRef) : Statement (.bit src b dst) :=
  fun p _ => classify_encodeDouble p .bit src b dst (.inl (by decide))

theorem bic (src : OperandRef) (b : Bool) (dst : OperandRef) : Statement (.bic src b dst) :=
  fun p _ => classify_encodeDouble p .bic src b dst (.inl (by decide))

theorem bis (src : OperandRef) (b : Bool) (dst : OperandRef) : Statement (.bis src b dst) :=
  fun p _ => classify_encodeDouble p .bis src b dst (.inl (by decide))

theorem xor (src : OperandRef) (b : Bool) (dst : OperandRef) : Statement (.xor src b dst) :=
  fun p _ => classify_encodeDouble p .xor src b dst (.inl (by decide))

theorem and (src : OperandRef) (b : Bool) (dst : OperandRef) : Statement (.and src b dst) :=
  fun p _ => classify_encodeDouble p .and src b dst (.inl (by decide))

end Sys2Proof.Laws.WordFormat
end

