-- ==== Sys2Proof/Laws/Trace.lean ====
section
/-! SUPPORT. What one turn of a trace can answer, and how reached states compose (70_reset_and_hazards.md R171, R172). -/

namespace Sys2Proof.Machine

theorem atHaltWord_iff (s : State) : s.atHaltWord = true ↔ s.mem.word s.pc = 0x3FFF := by simp [State.atHaltWord]

theorem referenceMeaning_iff (h : Option Handoff) : referenceMeaning h = true ↔ HasReferenceMeaning h := by
  cases h <;> simp [referenceMeaning, HasReferenceMeaning]

/-- Everything one turn of a trace can answer. -/
theorem referenceTrace_succ_cases (k : Nat) (s : State) :
    (∃ f, step s = .fault f ∧ referenceTrace (k + 1) s = .abnormal f) ∨
    (∃ t, step s = .next t ∧ s.mem.word s.pc = 0x3FFF ∧ referenceTrace (k + 1) s = .normal t) ∨
    (∃ t, step s = .next t ∧ s.mem.word s.pc ≠ 0x3FFF ∧ HasReferenceMeaning t.handoff ∧
      referenceTrace (k + 1) s = referenceTrace k t) ∨
    (∃ t, step s = .next t ∧ s.mem.word s.pc ≠ 0x3FFF ∧ ¬ HasReferenceMeaning t.handoff ∧
      referenceTrace (k + 1) s = .refused t.handoff) := by
  have answers : (∃ t, step s = .next t) ∨ ∃ f, step s = .fault f := by
    rcases step_cases s with ⟨-, -, -, he⟩ | ⟨-, u, -, he⟩ | ⟨-, i, -, he⟩ <;> rw [he]
    · exact .inr ⟨_, rfl⟩
    · exact .inr ⟨_, rfl⟩
    · rcases exec_not_next (i := i) (s := s.clearHandoff.afterStream) with ⟨t, e⟩ | ⟨info, e⟩
      · exact .inl ⟨t, e⟩
      · exact .inr ⟨_, e⟩
  rcases answers with ⟨t, e⟩ | ⟨f, e⟩
  · by_cases hw : s.mem.word s.pc = 0x3FFF
    · exact .inr (.inl ⟨t, e, hw, by simp [referenceTrace, e, (atHaltWord_iff s).2 hw]⟩)
    · have ha : s.atHaltWord = false := by rw [← Bool.not_eq_true, atHaltWord_iff]; exact hw
      by_cases hm : HasReferenceMeaning t.handoff
      · exact .inr (.inr (.inl ⟨t, e, hw, hm, by simp [referenceTrace, e, ha, (referenceMeaning_iff _).2 hm]⟩))
      · have hf : referenceMeaning t.handoff = false := by rw [← Bool.not_eq_true, referenceMeaning_iff]; exact hm
        exact .inr (.inr (.inr ⟨t, e, hw, hm, by simp [referenceTrace, e, ha, hf]⟩))
  · exact .inl ⟨f, e, by simp [referenceTrace, e]⟩

end Sys2Proof.Machine
end

