-- ==== Sys2Proof/Tests/Slice0.lean ====
section
/-! SUPPORT. The model's own tests, their expected values from spec/95_test_vectors.md or worked out by hand from the rule named,
and one witness per statement of Certificates/Slice0/Obligations.lean that has hypotheses. -/

namespace Sys2Proof.Tests

open Sys2Proof.Machine

/-! ### Well-formedness refuses -/

/-- R63: register 3 has no Direct. -/
theorem test_illFormed_alphabet : (Instr.push false ⟨3, .direct⟩).wellFormed .default = false := by decide
/-- R62: register 2 has no Indexed. -/
theorem test_illFormed_srAlphabet : (Instr.mov ⟨2, .indexed⟩ false ⟨4, .direct⟩).wellFormed .default = false := by decide
/-- R61: Const4 is register 2's only. -/
theorem test_illFormed_generalAlphabet : (Instr.call false ⟨4, .const4⟩).wellFormed .default = false := by decide
/-- R56: a one-bit destination code cannot name Indirect. -/
theorem test_illFormed_oneBitDestination : (Instr.add ⟨4, .direct⟩ false ⟨5, .indirect⟩).wellFormed .default = false := by decide
/-- R56: nor Const2 on register 3, nor Const4 on register 2. -/
theorem test_illFormed_oneBitConstants :
    (Instr.add ⟨4, .direct⟩ false ⟨3, .const2⟩).wellFormed .default = false ∧
    (Instr.add ⟨4, .direct⟩ false ⟨2, .const4⟩).wellFormed .default = false := by decide
/-- R54: an offset beyond +511 or below -512. -/
theorem test_illFormed_offset :
    (Instr.jmp 512).wellFormed .default = false ∧ (Instr.jmp 0xFDFF).wellFormed .default = false ∧
    (Instr.jmp 511).wellFormed .default = true ∧ (Instr.jmp 0xFE00).wellFormed .default = true := by decide
/-- R73: under SINGLE_BW_BIT = 5 the width flag is the high bit of the mode code. -/
theorem test_illFormed_widthFlag :
    (Instr.rrc true ⟨5, .direct⟩).wellFormed { Config.Params.default with singleBwBit := .five } = false ∧
    (Instr.rrc true ⟨5, .direct⟩).wellFormed .default = true := by decide
/-- R50: JNE has no word under `lsb_first_literal`. -/
theorem test_illFormed_jne :
    (Instr.jne 0).wellFormed { Config.Params.default with reading := .lsbFirstLiteral } = false := by decide
/-- R50, R67: SUB and CMP have no word under `msb_first_literal`. -/
theorem test_illFormed_subCmp :
    (Instr.sub ⟨4, .direct⟩ false ⟨5, .direct⟩).wellFormed { Config.Params.default with reading := .msbFirstLiteral } = false ∧
    (Instr.cmp ⟨4, .direct⟩ false ⟨5, .direct⟩).wellFormed { Config.Params.default with reading := .msbFirstLiteral } = false := by
  decide

/-! ### Decoding: words written out field by field (R52, R54, R55), one for each constructor -/

/-- Pattern 000100, opcode, width flag, mode code, register (R52). -/
theorem test_decode_rrc : decode .default (0b000100#6 ++ 0b000#3 ++ 1#1 ++ 0b11#2 ++ 0b1111#4) = .ok (.rrc true ⟨15, .indirectIncrement⟩) := by decide
theorem test_decode_swpb : decode .default (0b000100#6 ++ 0b001#3 ++ 1#1 ++ 0b00#2 ++ 0b0101#4) = .ok (.swpb true ⟨5, .direct⟩) := by decide
theorem test_decode_rra : decode .default (0b000100#6 ++ 0b010#3 ++ 0#1 ++ 0b01#2 ++ 0b0010#4) = .ok (.rra false ⟨2, .absoluteAddressing⟩) := by decide
theorem test_decode_sxt : decode .default (0b000100#6 ++ 0b011#3 ++ 0#1 ++ 0b00#2 ++ 0b0100#4) = .ok (.sxt false ⟨4, .direct⟩) := by decide
theorem test_decode_push : decode .default (0b000100#6 ++ 0b100#3 ++ 1#1 ++ 0b10#2 ++ 0b0000#4) = .ok (.push true ⟨0, .indirect⟩) := by decide
theorem test_decode_call : decode .default (0b000100#6 ++ 0b101#3 ++ 0#1 ++ 0b11#2 ++ 0b0000#4) = .ok (.call false ⟨0, .indirectIncrement⟩) := by decide
theorem test_decode_reti : decode .default (0b000100#6 ++ 0b110#3 ++ 0#1 ++ 0b01#2 ++ 0b0110#4) = .ok (.reti false ⟨6, .indexed⟩) := by decide
/-- Pattern 001, condition, offset (R54). -/
theorem test_decode_jne : decode .default (0b001#3 ++ 0b000#3 ++ 0b1111111110#10) = .ok (.jne 0xFFFE) := by decide
theorem test_decode_jeq : decode .default (0b001#3 ++ 0b001#3 ++ 0b0000110100#10) = .ok (.jeq 52) := by decide
theorem test_decode_jnc : decode .default (0b001#3 ++ 0b010#3 ++ 0b0111111111#10) = .ok (.jnc 511) := by decide
theorem test_decode_jc : decode .default (0b001#3 ++ 0b011#3 ++ 0b1000000000#10) = .ok (.jc 0xFE00) := by decide
theorem test_decode_jn : decode .default (0b001#3 ++ 0b100#3 ++ 0b0000000001#10) = .ok (.jn 1) := by decide
theorem test_decode_jge : decode .default (0b001#3 ++ 0b101#3 ++ 0b0000000010#10) = .ok (.jge 2) := by decide
theorem test_decode_jl : decode .default (0b001#3 ++ 0b110#3 ++ 0b1111111101#10) = .ok (.jl 0xFFFD) := by decide
theorem test_decode_jmp : decode .default (0b001#3 ++ 0b111#3 ++ 0b1111111111#10) = .ok (.jmp 0xFFFF) := by decide
/-- Opcode, source register, destination mode bit, width flag, source mode code, destination register (R55). -/
theorem test_decode_mov : decode .default (0b0100#4 ++ 0b0011#4 ++ 1#1 ++ 0#1 ++ 0b01#2 ++ 0b0010#4) = .ok (.mov ⟨3, .const1⟩ false ⟨2, .absoluteAddressing⟩) := by decide
theorem test_decode_add : decode .default (0b0101#4 ++ 0b0011#4 ++ 0#1 ++ 0#1 ++ 0b01#2 ++ 0b0101#4) = .ok (.add ⟨3, .const1⟩ false ⟨5, .direct⟩) := by decide
theorem test_decode_addc : decode .default (0b0110#4 ++ 0b0011#4 ++ 0#1 ++ 1#1 ++ 0b00#2 ++ 0b0101#4) = .ok (.addc ⟨3, .const0⟩ true ⟨5, .direct⟩) := by decide
theorem test_decode_subc : decode .default (0b0111#4 ++ 0b0100#4 ++ 0#1 ++ 0#1 ++ 0b10#2 ++ 0b0101#4) = .ok (.subc ⟨4, .indirect⟩ false ⟨5, .direct⟩) := by decide
theorem test_decode_sub : decode .default (0b1000#4 ++ 0b0011#4 ++ 0#1 ++ 0#1 ++ 0b10#2 ++ 0b0101#4) = .ok (.sub ⟨3, .const2⟩ false ⟨5, .direct⟩) := by decide
theorem test_decode_cmp : decode .default (0b1001#4 ++ 0b0011#4 ++ 0#1 ++ 0#1 ++ 0b11#2 ++ 0b0101#4) = .ok (.cmp ⟨3, .constNeg1⟩ false ⟨5, .direct⟩) := by decide
theorem test_decode_dadd : decode .default (0b1010#4 ++ 0b0100#4 ++ 0#1 ++ 0#1 ++ 0b00#2 ++ 0b0101#4) = .ok (.dadd ⟨4, .direct⟩ false ⟨5, .direct⟩) := by decide
theorem test_decode_bit : decode .default (0b1011#4 ++ 0b0010#4 ++ 0#1 ++ 0#1 ++ 0b11#2 ++ 0b0101#4) = .ok (.bit ⟨2, .const8⟩ false ⟨5, .direct⟩) := by decide
theorem test_decode_bic : decode .default (0b1100#4 ++ 0b0011#4 ++ 0#1 ++ 0#1 ++ 0b01#2 ++ 0b0010#4) = .ok (.bic ⟨3, .const1⟩ false ⟨2, .direct⟩) := by decide
theorem test_decode_bis : decode .default (0b1101#4 ++ 0b0011#4 ++ 0#1 ++ 0#1 ++ 0b10#2 ++ 0b0010#4) = .ok (.bis ⟨3, .const2⟩ false ⟨2, .direct⟩) := by decide
theorem test_decode_xor : decode .default (0b1110#4 ++ 0b0010#4 ++ 0#1 ++ 0#1 ++ 0b10#2 ++ 0b0101#4) = .ok (.xor ⟨2, .const4⟩ false ⟨5, .direct⟩) := by decide
theorem test_decode_and : decode .default (0b1111#4 ++ 0b1111#4 ++ 1#1 ++ 1#1 ++ 0b11#2 ++ 0b1111#4) = .ok (.and ⟨15, .indirectIncrement⟩ true ⟨15, .indexed⟩) := by decide

/-- L2.2: the words that raise UnknownOpcode record format, code and word. -/
theorem test_decode_unknownOpcode :
    decode .default 0x0FFF = .error ⟨.doubleOperand, 0, 0x0FFF⟩ ∧ decode .default 0x1380 = .error ⟨.singleOperand, 7, 0x1380⟩ ∧
    decode .default 0x1FFF = .error ⟨.doubleOperand, 1, 0x1FFF⟩ ∧
    decode { Config.Params.default with reading := .lsbFirstLiteral } 0x2380 = .error ⟨.singleOperand, 7, 0x2380⟩ ∧
    decode { Config.Params.default with reading := .msbFirstLiteral } 0x3FFF = .error ⟨.doubleOperand, 3, 0x3FFF⟩ := by decide
/-- L2.2: the vectors that tell SINGLE_BW_BIT apart. -/
theorem test_decode_singleBwBit :
    decode { Config.Params.default with singleBwBit := .five } 0x10C5 = .ok (.swpb false ⟨5, .direct⟩) ∧
    decode { Config.Params.default with singleBwBit := .five } 0x1260 = .ok (.push true ⟨0, .indirect⟩) := by decide
/-- The opcode table's rows are numbered with the instruction word lowest: an extension word above it is not decoded (R59). -/
theorem test_decodeTableWord :
    decodeTableWord 16 0x4035 = some (.mov ⟨0, .indirectIncrement⟩ false ⟨5, .direct⟩) ∧
    decodeTableWord 32 0xABCD4035 = some (.mov ⟨0, .indirectIncrement⟩ false ⟨5, .direct⟩) ∧ decodeTableWord 16 0 = none := by
  decide

/-! ### The context of L2.3 to L2.6 -/

/-- The memory of L2.3 with the instruction word `w` at 0x0010. -/
def memory (w : Word) : Memory :=
  [((0x0002 : Word), (0x2222 : Word)), (0x0010, w), (0x0011, 0x0002), (0x0013, 0x3333), (0x0014, 0x4444), (0x0200, 0x0BAD),
    (0x0300, 0xBEEF), (0x0302, 0x7777)].foldl (fun m c => m.setWord c.1 c.2) []

/-- The context of L2.4 and L2.6 before the fetch: the instruction word `w` at A = 0x0010. -/
def before (w : Word) : State :=
  State.ofContext .default
    #v[0x0010, 0x0200, 0x0005, 0, 0x1234, 0x0300, 0x0400, 0, 0, 0, 0, 0, 0, 0, 0, 0] (memory w)

/-- The context of L2.3: the pc past the instruction word, and no event yet. -/
def after : State := (before 0).setPc 0x0011

/-- Under ADDR_OVERFLOW = fault. -/
def faulting (s : State) : State := { s with params := { s.params with addrOverflow := .fault } }

/-- Under PC_INDEX_BASE = at_extension. -/
def atExtension (s : State) : State := { s with params := { s.params with pcIndexBase := .atExtension } }

/-- What the step handed over, and its events: nothing unless it goes on. -/
def handed (o : Host.Outcome State Fault Refusal) : Option (Option Handoff × List Event) :=
  match o with
  | .next s => some (s.handoff, s.ev)
  | .fault _ => none
  | .refused _ => none

/-- A register after the step. -/
def regAfter (r : Reg) (o : Host.Outcome State Fault Refusal) : Option Word :=
  match o with
  | .next s => some (s.readReg r)
  | .fault _ => none
  | .refused _ => none

/-- A word of memory after the step. -/
def wordAfter (a : Word) (o : Host.Outcome State Fault Refusal) : Option Word :=
  match o with
  | .next s => some (s.mem.word a)
  | .fault _ => none
  | .refused _ => none

/-- The failure, and the context it leaves. -/
def failure (o : Host.Outcome State Fault Refusal) : Option (FaultInfo × State) :=
  match o with
  | .fault (.raised info c) => some (info, c)
  | .next _ => none
  | .refused _ => none

/-- ctx0 of the word `w` (R152). -/
def ctx0 (w : Word) : State := (before w).afterStream

/-! ### The adder, the stream and the operands: L2.3 -/

theorem test_ea_wrap :
    effectiveAddress .default 0x0401 0xFFFF = .ok 0x0400 ∧ effectiveAddress .default 0x0000 0xFFFF = .ok 0xFFFF ∧
    effectiveAddress .default 0xFFFF 0x0001 = .ok 0x0000 ∧ effectiveAddress .default 0x8000 0x8000 = .ok 0x0000 ∧
    effectiveAddress .default 0x7FFF 0x7FFF = .ok 0xFFFE := by decide
theorem test_ea_fault :
    effectiveAddress (faulting after).params 0x0401 0xFFFF = .ok 0x0400 ∧
    effectiveAddress (faulting after).params 0x0000 0xFFFF = .error (.addressOverflow (-1)) ∧
    effectiveAddress (faulting after).params 0xFFFF 0x0001 = .error (.addressOverflow 0x10000) ∧
    effectiveAddress (faulting after).params 0x8000 0x8000 = .ok 0x0000 ∧
    effectiveAddress (faulting after).params 0x7FFF 0x7FFF = .ok 0xFFFE := by decide

theorem test_source_direct : resolveSource ⟨2, .direct⟩ after = .ok (0x0005, after) := by decide
theorem test_source_indexed :
    (resolveSource ⟨5, .indexed⟩ after).map (fun x => (x.1, x.2.pc, x.2.ev)) =
      .ok (0x7777, 0x0012, [.fetch 0x0011, .read 0x0302]) := by decide
theorem test_source_pcIndexed :
    (resolveSource ⟨0, .indexed⟩ after).map (fun x => (x.1, x.2.ev)) = .ok (0x4444, [.fetch 0x0011, .read 0x0014]) ∧
    (resolveSource ⟨0, .indexed⟩ (atExtension after)).map (fun x => (x.1, x.2.ev)) =
      .ok (0x3333, [.fetch 0x0011, .read 0x0013]) := by decide
theorem test_source_indirect :
    (resolveSource ⟨5, .indirect⟩ after).map (fun x => (x.1, x.2.pc, x.2.ev)) = .ok (0xBEEF, 0x0011, [.read 0x0300]) := by decide
theorem test_source_pcIndirect :
    (resolveSource ⟨0, .indirect⟩ after).map (fun x => (x.1, x.2.pc, x.2.ev)) = .ok (0x0002, 0x0012, [.fetch 0x0011]) := by decide
theorem test_source_autoincrement :
    (resolveSource ⟨1, .indirectIncrement⟩ after).map (fun x => (x.1, x.2.sp, x.2.ev)) = .ok (0x0BAD, 0x0201, [.read 0x0200]) := by
  decide
theorem test_source_autoincrement_wraps :
    (resolveSource ⟨5, .indirectIncrement⟩ (faulting (after.writeReg 5 0xFFFF))).map (fun x => (x.2.readReg 5, x.2.ev)) =
      .ok (0x0000, [.read 0xFFFF]) := by decide
theorem test_source_immediate :
    (resolveSource ⟨0, .indirectIncrement⟩ after).map (fun x => (x.1, x.2.pc, x.2.ev)) = .ok (0x0002, 0x0012, [.fetch 0x0011]) := by
  decide
theorem test_source_absolute :
    (resolveSource ⟨2, .absoluteAddressing⟩ after).map (fun x => (x.1, x.2.pc, x.2.ev)) =
      .ok (0x2222, 0x0012, [.fetch 0x0011, .read 0x0002]) := by decide
theorem test_destination_indexed :
    (resolveDestination ⟨0, .indexed⟩ after).map (fun x => (x.1, x.2.ev)) = .ok (.mem 0x0014, [.fetch 0x0011]) ∧
    (resolveDestination ⟨0, .indexed⟩ (atExtension after)).map (fun x => (x.1, x.2.ev)) = .ok (.mem 0x0013, [.fetch 0x0011]) := by
  decide
theorem test_stream_top :
    (State.setPc (faulting after) 0xFFFF).streamNext = .error (.addressOverflow 0xFFFF) ∧
    (after.setPc 0xFFFF).streamNext.map (fun x => x.2.pc) = .ok 0x0000 := by decide
/-- R15, S7: a write through the zero register's location vanishes. -/
theorem test_zeroRegister : ((after.writeLoc (.reg 3) 0xBEEF).readReg 3 = 0) ∧ after.writeLoc (.reg 3) 0xBEEF = after := by decide

/-! ### Memory keeps its canonical form -/

theorem test_memory_listed : Memory.setWord [] 0x0001 0x1200 = [(3, 0x12)] := by decide
theorem test_memory_unlisted : Memory.setWord [(2, 0x34), (3, 0x12)] 0x0001 0 = [] := by decide

/-! ### Single-operand steps: L2.4 -/

theorem test_rrc : handed (step (before 0x1015)) =
    some (some ⟨.single .rrc, false, .location (.mem 0x0302)⟩, [.fetch 0x0010, .fetch 0x0011]) := by decide
theorem test_rrc_indirect : failure (step (before 0x1025)) = some (.invalidDestinationMode 5 .indirect, ctx0 0x1025) := by decide
theorem test_swpb : handed (step (before 0x1092)) =
    some (some ⟨.single .swpb, false, .location (.mem 0x0002)⟩, [.fetch 0x0010, .fetch 0x0011]) := by decide
theorem test_rra : handed (step (before 0x1103)) =
    some (some ⟨.single .rra, false, .location (.reg 3)⟩, [.fetch 0x0010]) := by decide
theorem test_rra_const1 : failure (step (before 0x1113)) = some (.invalidDestinationMode 3 .const1, ctx0 0x1113) := by decide
theorem test_sxt : handed (step (before 0x1184)) =
    some (some ⟨.single .sxt, false, .location (.reg 4)⟩, [.fetch 0x0010]) := by decide
theorem test_sxt_const4 : failure (step (before 0x11A2)) = some (.invalidDestinationMode 2 .const4, ctx0 0x11A2) := by decide
theorem test_push : handed (step (before 0x1235)) =
    some (some ⟨.single .push, false, .value 0xBEEF⟩, [.fetch 0x0010, .read 0x0300]) := by decide
theorem test_push_steps : regAfter 5 (step (before 0x1235)) = some 0x0301 := by decide
theorem test_call : handed (step (before 0x12B0)) =
    some (some ⟨.single .call, false, .value 0x0002⟩, [.fetch 0x0010, .fetch 0x0011]) := by decide
theorem test_call_pcIndexed : handed (step (before 0x1290)) =
    some (some ⟨.single .call, false, .value 0x4444⟩, [.fetch 0x0010, .fetch 0x0011, .read 0x0014]) := by decide
theorem test_reti : handed (step (before 0x1316)) = some (some ⟨.single .reti, false, .nothing⟩, [.fetch 0x0010]) := by decide
/-- L2.4: the next instruction after the RETI word 0x1316 is fetched at 0x0011. -/
theorem test_reti_followingWord : regAfter 0 (step (before 0x1316)) = some 0x0011 := by decide
theorem test_unknownOpcode : failure (step (before 0x1380)) = some (.unknownOpcode .singleOperand 7 0x1380, ctx0 0x1380) := by decide

/-! ### Jumps: L2.5 -/

/-- The context of L2.5: the word at A, and a status word. -/
def jumpAt (a w status : Word) : State := (((before 0).setPc a).writeReg 2 status).writeMem a w

theorem test_jeq_taken : regAfter 0 (step (jumpAt 0x0100 0x2434 0x0002)) = some 0x0135 := by decide
theorem test_jeq_untaken : regAfter 0 (step (jumpAt 0x0100 0x2434 0x0000)) = some 0x0101 := by decide
theorem test_jne : regAfter 0 (step (jumpAt 0x0031 0x23FE 0x0000)) = some 0x0030 := by decide
theorem test_jnc : regAfter 0 (step (jumpAt 0x0000 0x29FF 0x0004)) = some 0x0200 := by decide
theorem test_jc : regAfter 0 (step (jumpAt 0x0300 0x2E00 0x0001)) = some 0x0101 := by decide
theorem test_jn : regAfter 0 (step (jumpAt 0x0100 0x3002 0x0004)) = some 0x0103 := by decide
theorem test_jge : regAfter 0 (step (jumpAt 0x0100 0x3402 0x0104)) = some 0x0103 := by decide
theorem test_jge_untaken : regAfter 0 (step (jumpAt 0x0100 0x3402 0x0004)) = some 0x0101 := by decide
theorem test_jl : regAfter 0 (step (jumpAt 0x0100 0x3802 0x0100)) = some 0x0103 := by decide
theorem test_jl_untaken : regAfter 0 (step (jumpAt 0x0100 0x3802 0xFEF8)) = some 0x0101 := by decide
theorem test_jmp_wraps : regAfter 0 (step (jumpAt 0x0000 0x3E00 0)) = some 0xFE01 := by decide
theorem test_jmp_overflows : (failure (step (faulting (jumpAt 0xFF00 0x3DFF 0)))).map Prod.fst = some (.addressOverflow 0x10100) := by
  decide

/-! ### Double-operand steps: L2.6 -/

theorem test_mov : handed (step (before 0x4034)) =
    some (some ⟨.double .mov, false, .both 0x0002 (.reg 4)⟩, [.fetch 0x0010, .fetch 0x0011]) := by decide
/-- R103 on 0x45B5, MOV @R5+, X(R5), with the displacement 2: the destination sees the stepped register. -/
theorem test_mov_steps : wordAfter 0x0303 (step (before 0x45B5)) = some 0xBEEF := by decide
theorem test_add : handed (step (before 0x5315)) =
    some (some ⟨.double .add, false, .both 0x0001 (.reg 5)⟩, [.fetch 0x0010]) := by decide
theorem test_addc : handed (step (before 0x6305)) =
    some (some ⟨.double .addc, false, .both 0x0000 (.reg 5)⟩, [.fetch 0x0010]) := by decide
theorem test_subc : handed (step (before 0x7425)) =
    some (some ⟨.double .subc, false, .both 0x0000 (.reg 5)⟩, [.fetch 0x0010, .read 0x1234]) := by decide
theorem test_sub : handed (step (before 0x8325)) =
    some (some ⟨.double .sub, false, .both 0x0002 (.reg 5)⟩, [.fetch 0x0010]) := by decide
theorem test_cmp : handed (step (before 0x9335)) =
    some (some ⟨.double .cmp, false, .both 0xFFFF (.reg 5)⟩, [.fetch 0x0010]) := by decide
theorem test_cmp_const1 : failure (step (before 0x9383)) = some (.invalidDestinationMode 3 .const1, ctx0 0x9383) := by decide
theorem test_dadd : handed (step (before 0xA405)) =
    some (some ⟨.double .dadd, false, .both 0x1234 (.reg 5)⟩, [.fetch 0x0010]) := by decide
theorem test_bit : handed (step (before 0xB235)) =
    some (some ⟨.double .bit, false, .both 0x0008 (.reg 5)⟩, [.fetch 0x0010]) := by decide
theorem test_bic : handed (step (before 0xC312)) =
    some (some ⟨.double .bic, false, .both 0x0001 (.reg 2)⟩, [.fetch 0x0010]) := by decide
theorem test_bis : handed (step (before 0xD322)) =
    some (some ⟨.double .bis, false, .both 0x0002 (.reg 2)⟩, [.fetch 0x0010]) := by decide
theorem test_xor : handed (step (before 0xE335)) =
    some (some ⟨.double .xor, false, .both 0xFFFF (.reg 5)⟩, [.fetch 0x0010]) := by decide
theorem test_and : handed (step (before 0xF486)) =
    some (some ⟨.double .and, false, .both 0x1234 (.mem 0x0402)⟩, [.fetch 0x0010, .fetch 0x0011]) := by decide
/-- L2.6: a destination that fails undoes the source's autoincrement and its Read event. -/
theorem test_doubleRollback : failure (step (before 0x45B3)) = some (.invalidDestinationMode 3 .const1, ctx0 0x45B3) := by decide
/-- L2.7: the source's overflow comes first under `fault`, and the destination's failure under `wrap`. -/
theorem test_onlyOneFailure :
    (failure (step (faulting (((before 0x4193).writeReg 1 0xFFFF).writeMem 0x0011 0x0001)))).map Prod.fst =
      some (.addressOverflow 0x10000) ∧
    (failure (step (((before 0x4193).writeReg 1 0xFFFF).writeMem 0x0011 0x0001))).map Prod.fst =
      some (.invalidDestinationMode 3 .const1) := by decide
/-- R102 to R106 on 0x40B0: two extension words. -/
theorem test_twoExtensionWords : handed (step ((before 0x40B0).writeMem 0x0012 0x0005)) =
    some (some ⟨.double .mov, false, .both 0x0002 (.mem 0x0018)⟩, [.fetch 0x0010, .fetch 0x0011, .fetch 0x0012]) := by decide

/-! ### The step from reset, and traces -/

/-- With nothing placed, the word at the pc of `State.reset` is 0x0000, which has no opcode (log entry 9). -/
theorem test_resetAlone : (failure (step State.reset)).map Prod.fst = some (.unknownOpcode .doubleOperand 0 0) := by decide
/-- A placed instruction is the next one, with its extension words above it (log entry 9). -/
theorem test_withFetchWord : handed (step (State.reset.withFetchWord 32 0x12344034)) =
    some (some ⟨.double .mov, false, .both 0x1234 (.reg 4)⟩, [.fetch 0x0000, .fetch 0x0001]) := by decide
/-- R172: the trace of `JMP $` alone ends normally. -/
theorem test_trace_normal : ∃ t, referenceTrace 1 (before 0x3FFF) = .normal t ∧ t.pc = 0x0010 := ⟨_, rfl, by decide⟩
/-- R171: ADD is given no meaning by the reference layer. -/
theorem test_trace_refused : referenceTrace 1 (before 0x5315) = .refused (some ⟨.double .add, false, .both 0x0001 (.reg 5)⟩) := by
  rfl

/-! ### Witnesses: for each statement with hypotheses, inputs that meet them together, clause by clause -/

/-- The default parameters with SINGLE_BW_BIT = 5. -/
def bwFive : Config.Params := { Config.Params.default with singleBwBit := .five }

theorem witness_EncodeAndDecodeAreInverse :
    (Instr.rrc true ⟨15, .indirectIncrement⟩).wellFormed .default = true ∧
    (Instr.push true ⟨0, .indirect⟩).wellFormed bwFive = true ∧
    decode .default 0xFFFF = .ok (.and ⟨15, .indirectIncrement⟩ true ⟨15, .indexed⟩) ∧
    decode bwFive 0x10C5 = .ok (.swpb false ⟨5, .direct⟩) ∧ (Instr.swpb false ⟨5, .direct⟩).format = .singleOperand ∧
    decode bwFive 0x2434 = .ok (.jeq 52) ∧ (Instr.jeq 52).format ≠ .singleOperand := by decide

theorem witness_UnknownOpcodeWordsAreTheTabledOnes :
    decode .default 0x0FFF = .error ⟨.doubleOperand, 0, 0x0FFF⟩ ∧ decode .default 0x1380 = .error ⟨.singleOperand, 7, 0x1380⟩ ∧
    (before 0x1380).fetchInstruction = .ok (0x1380, ctx0 0x1380) ∧
    ∃ c, step (before 0x1380) = .fault (.raised (.unknownOpcode .singleOperand 7 0x1380) c) :=
  ⟨by decide, by decide, by decide, _, rfl⟩

theorem witness_RegisterNumberChoosesTheAlphabet :
    decode .default 0x4392 = .ok (.mov ⟨3, .const1⟩ false ⟨2, .absoluteAddressing⟩) ∧
    (⟨3, .const1⟩ : OperandRef) ∈ (Instr.mov ⟨3, .const1⟩ false ⟨2, .absoluteAddressing⟩).operands ∧
    (⟨2, .absoluteAddressing⟩ : OperandRef) ∈ (Instr.mov ⟨3, .const1⟩ false ⟨2, .absoluteAddressing⟩).operands ∧
    modeOf 15 3 = modeOf 15 3 ∧ (15 : Reg) ≠ 2 ∧ (15 : Reg) ≠ 3 := by decide

theorem witness_StepRunsTheDecodedInstruction :
    StreamFits 1 (before 0x5315) ∧
    decode (before 0x5315).params ((before 0x5315).mem.word (before 0x5315).pc) = .ok (.add ⟨3, .const1⟩ false ⟨5, .direct⟩) :=
  ⟨.inl rfl, by decide⟩

theorem witness_StreamAdvancesPcByOneWord :
    (after.setPc 0xFFFF).streamNext = .ok (0, (after.setPc 0xFFFF).afterStream) ∧ after.params.addrOverflow = .wrap ∧
    (State.setPc (faulting after) 0xFFFF).params.addrOverflow = .fault ∧ (State.setPc (faulting after) 0xFFFF).pc = 0xFFFF ∧
    (State.setPc (faulting after) 0xFFFE).params.addrOverflow = .fault ∧ (State.setPc (faulting after) 0xFFFE).pc ≠ 0xFFFF := by
  decide

theorem witness_FetchOverflowLeavesTheState : ¬ StreamFits 1 (State.setPc (faulting after) 0xFFFF) := by
  unfold StreamFits; decide

theorem witness_EffectiveAddressIsTheSignedSum :
    after.params.addrOverflow = .wrap ∧ (faulting after).params.addrOverflow = .fault ∧
    (((0x0001 : Word).toNat : Int) + (0xFFFF : Word).toInt = 0) ∧
    (((0xFFFE : Word).toNat : Int) + (0x0001 : Word).toInt = 0xFFFF) ∧
    (((0x0000 : Word).toNat : Int) + (0xFFFF : Word).toInt = -1) ∧
    (((0xFFFF : Word).toNat : Int) + (0x0001 : Word).toInt = 0x10000) := by decide

theorem witness_InitialContextsAreAsListed : (4 : Reg) ≠ 3 ∧ (memory 0x5315).wf := by decide

theorem witness_ZeroRegisterIsAlwaysZero :
    ((before 0x3FFF).regs[3] = 0 ∧ ∃ t, step (before 0x3FFF) = .next t) ∧
    ((before 0x1025).regs[3] = 0 ∧ ∃ info c, step (before 0x1025) = .fault (.raised info c)) :=
  ⟨⟨by decide, _, rfl⟩, ⟨by decide, _, _, rfl⟩⟩

theorem witness_WriteThroughALocation :
    (2 : Reg) ≠ 3 ∧ (1 : Reg) ∉ ([2] : List Reg) ∧ (0xFFFF : Word) ≠ 0x0000 := by decide

theorem witness_FetchSeesTheLastWrite :
    (after.writeMem 0x0011 0x5315).pc = 0x0011 ∧
    (after.writeMem 0x0011 0x5315).mem.word 0x0011 = (after.writeLoc (.mem 0x0011) 0x5315).mem.word 0x0011 ∧
    StreamFits 1 (after.writeMem 0x0011 0x5315) := ⟨by decide, by decide, .inl rfl⟩

theorem witness_TheBlockNeverWritesMemory :
    (∃ t, resolveSource ⟨5, .indirect⟩ after = .ok (0xBEEF, t)) ∧
    (∃ t, resolveDestination ⟨2, .absoluteAddressing⟩ after = .ok (.mem 0x0002, t)) ∧
    (∃ t, after.streamNext = .ok (0x0002, t)) ∧ (∃ t, exec (mkJump .always 1) after = .next t) :=
  ⟨⟨_, rfl⟩, ⟨_, rfl⟩, ⟨_, rfl⟩, ⟨_, rfl⟩⟩

theorem witness_DirectSourceReadsItsRegister : (0 : Reg) ≠ 3 ∧ (2 : Reg) ≠ 3 ∧ (15 : Reg) ≠ 3 := by decide

/-- The operand `{6, Indexed}` whose sum, 0x0400 + 2, fits under `fault`. -/
theorem indexed_fits : OperandFits ⟨6, .indexed⟩ (faulting after) := by
  unfold OperandFits StreamFits SumFits; decide

/-- The operand `{5, Indexed}` whose sum, 0xFFFF + 2, does not. -/
theorem indexed_overflows : ¬ OperandFits ⟨5, .indexed⟩ (faulting (after.writeReg 5 0xFFFF)) := by
  unfold OperandFits StreamFits SumFits; decide

/-- The stream does not overflow there, the sum does. -/
theorem indexed_sum_overflows :
    StreamFits 1 (faulting (after.writeReg 5 0xFFFF)) ∧
    ¬ SumFits (faulting (after.writeReg 5 0xFFFF)).params (indexedBase 5 (faulting (after.writeReg 5 0xFFFF)))
      ((faulting (after.writeReg 5 0xFFFF)).mem.word (faulting (after.writeReg 5 0xFFFF)).pc) := by
  unfold StreamFits SumFits; decide

/-- R154: what an overflow records: 0xFFFF for the stream, the exact sum 0xFFFF + 2 for the address. -/
theorem test_overflowValue :
    resolveSource ⟨5, .indexed⟩ (State.setPc (faulting after) 0xFFFF) = .error (.addressOverflow 0xFFFF) ∧
    resolveSource ⟨5, .indexed⟩ (faulting (after.writeReg 5 0xFFFF)) = .error (.addressOverflow 0x10001) := by decide

theorem witness_IndexedSourceReadsAtTheSum :
    ((6 : Reg) ≠ 2 ∧ (6 : Reg) ≠ 3 ∧ OperandFits ⟨6, .indexed⟩ (faulting after)) ∧
    ((0 : Reg) ≠ 2 ∧ (0 : Reg) ≠ 3 ∧ OperandFits ⟨0, .indexed⟩ (atExtension after)) ∧
    ((5 : Reg) ≠ 2 ∧ (5 : Reg) ≠ 3 ∧ ¬ OperandFits ⟨5, .indexed⟩ (faulting (after.writeReg 5 0xFFFF))) ∧
    ¬ StreamFits 1 (State.setPc (faulting after) 0xFFFF) ∧
    (StreamFits 1 (faulting (after.writeReg 5 0xFFFF)) ∧
      ¬ SumFits (faulting (after.writeReg 5 0xFFFF)).params (indexedBase 5 (faulting (after.writeReg 5 0xFFFF)))
        ((faulting (after.writeReg 5 0xFFFF)).mem.word (faulting (after.writeReg 5 0xFFFF)).pc)) :=
  ⟨⟨by decide, by decide, indexed_fits⟩, ⟨by decide, by decide, .inl rfl, fun _ => .inl rfl⟩,
    ⟨by decide, by decide, indexed_overflows⟩, witness_FetchOverflowLeavesTheState, indexed_sum_overflows⟩

theorem witness_IndirectAndAbsoluteSourcesReadMemory :
    ((1 : Reg) ≠ 0 ∧ (1 : Reg) ≠ 2 ∧ (1 : Reg) ≠ 3) ∧ StreamFits 1 (State.setPc (faulting after) 0xFFFE) ∧
    ¬ StreamFits 1 (State.setPc (faulting after) 0xFFFF) := by unfold StreamFits; decide

theorem witness_PcIndirectIsTheImmediate :
    (ModeTag.indirect = .indirect ∨ ModeTag.indirect = .indirectIncrement) ∧ StreamFits 1 (State.setPc (faulting after) 0xFFFE) ∧
    ¬ StreamFits 1 (State.setPc (faulting after) 0xFFFF) := by unfold StreamFits; decide

theorem witness_AutoincrementStepsAfterTheRead : (1 : Reg) ≠ 0 ∧ (1 : Reg) ≠ 2 ∧ (1 : Reg) ≠ 3 := by decide

theorem witness_RegisterDestinationsChangeNothing : (0 : Reg) ≠ 3 ∧ (2 : Reg) ≠ 3 := by decide

theorem witness_MemoryDestinationsGiveTheAddress :
    ((6 : Reg) ≠ 2 ∧ (6 : Reg) ≠ 3 ∧ OperandFits ⟨6, .indexed⟩ (faulting after)) ∧
    ((5 : Reg) ≠ 2 ∧ (5 : Reg) ≠ 3 ∧ ¬ OperandFits ⟨5, .indexed⟩ (faulting (after.writeReg 5 0xFFFF))) ∧
    (StreamFits 1 (faulting (after.writeReg 5 0xFFFF)) ∧
      ¬ SumFits (faulting (after.writeReg 5 0xFFFF)).params (indexedBase 5 (faulting (after.writeReg 5 0xFFFF)))
        ((faulting (after.writeReg 5 0xFFFF)).mem.word (faulting (after.writeReg 5 0xFFFF)).pc)) ∧
    StreamFits 1 after ∧ ¬ StreamFits 1 (State.setPc (faulting after) 0xFFFF) :=
  ⟨⟨by decide, by decide, indexed_fits⟩, ⟨by decide, by decide, indexed_overflows⟩, indexed_sum_overflows, .inl rfl,
    witness_FetchOverflowLeavesTheState⟩

theorem witness_SourceOnlyTagsAreNoDestination :
    ModeTag.constNeg1 ∈ [ModeTag.indirect, .indirectIncrement, .const1, .const2, .const4, .const8, .constNeg1] ∧
    decode .default 0x4483 = .ok (.mov ⟨4, .direct⟩ false ⟨3, .const1⟩) ∧
    (Instr.mov ⟨4, .direct⟩ false ⟨3, .const1⟩).operands = [⟨4, .direct⟩, ⟨3, .const1⟩] ∧
    ModeTag.const1 ∈ [ModeTag.indirect, .indirectIncrement, .const1, .const2, .const4, .const8, .constNeg1] := by decide

theorem witness_DestinationsMakeNoDataRead :
    (∃ t, resolveDestination ⟨5, .indexed⟩ after = .ok (.mem 0x0302, t)) ∧
    (∃ t, resolveDestination ⟨5, .direct⟩ after = .ok (.reg 5, t)) := ⟨⟨_, rfl⟩, ⟨_, rfl⟩⟩

theorem witness_OperandsConsumeTheirExtensionWords :
    (∃ t, resolveSource ⟨0, .indirect⟩ after = .ok (0x0002, t)) ∧
    (∃ t, resolveDestination ⟨5, .indexed⟩ after = .ok (.mem 0x0302, t)) ∧
    OperandRef.inAlphabet ⟨0, .indirect⟩ = true := ⟨⟨_, rfl⟩, ⟨_, rfl⟩, rfl⟩

theorem witness_ResolutionWritesPcAndSteppedRegisterOnly :
    (OperandRef.inAlphabet ⟨5, .indirectIncrement⟩ = true ∧ (5 : Reg) ≠ 0 ∧
      ∃ t, resolveSource ⟨5, .indirectIncrement⟩ after = .ok (0xBEEF, t)) ∧
    (∃ t, resolveDestination ⟨5, .indexed⟩ after = .ok (.mem 0x0302, t)) := ⟨⟨rfl, by decide, _, rfl⟩, ⟨_, rfl⟩⟩

theorem witness_DestinationSeesTheSteppedRegister :
    (5 : Reg) ≠ 0 ∧ (5 : Reg) ≠ 2 ∧ (5 : Reg) ≠ 3 ∧ StreamFits 1 (faulting after) ∧
    SumFits (faulting after).params ((faulting after).readReg 5 + 1) ((faulting after).mem.word (faulting after).pc) ∧
    Instr.mov ⟨5, .indirectIncrement⟩ false ⟨5, .indexed⟩ = mkDouble .mov ⟨5, .indirectIncrement⟩ false ⟨5, .indexed⟩ := by
  unfold StreamFits SumFits; decide

theorem witness_ConditionsReadFourFlags : (0xFEF8 : Word) &&& 0x0107 = 0x0000 &&& 0x0107 := by decide

theorem witness_JumpsSteerThePc :
    (Instr.jge 0x01FF, Cond.greaterOrEqual) ∈ [(Instr.jne 0x01FF, Cond.notEqual), (.jeq 0x01FF, .equal), (.jnc 0x01FF, .lower),
      (.jc 0x01FF, .carrySet), (.jn 0x01FF, .negative), (.jge 0x01FF, .greaterOrEqual), (.jl 0x01FF, .lessThan),
      (.jmp 0x01FF, .always)] ∧
    evaluateCondition .greaterOrEqual (jumpAt 0 0 0x0004).status = false ∧
    (evaluateCondition .greaterOrEqual (jumpAt 0xFE00 0 0).status = true ∧
      SumFits (faulting (jumpAt 0xFE00 0 0)).params (faulting (jumpAt 0xFE00 0 0)).pc 0x01FF) ∧
    (evaluateCondition .greaterOrEqual (jumpAt 0xFE01 0 0).status = true ∧
      ¬ SumFits (faulting (jumpAt 0xFE01 0 0)).params (faulting (jumpAt 0xFE01 0 0)).pc 0x01FF) := by
  unfold SumFits; decide

/-- JNE -2 at 0x0031 under `fault`, untaken and taken; JMP +511 at 0xFF00; and `JMP $`. -/
theorem witness_JumpWordsTargetNextPlusOffset :
    ((jumpAt 0x0031 0x23FE 0x0002).mem.word (jumpAt 0x0031 0x23FE 0x0002).pc = 0x23FE ∧ classify .msp430 0x23FE = .jump ∧
      StreamFits 1 (jumpAt 0x0031 0x23FE 0x0002) ∧
      evaluateCondition (condTable ((0x23FE : Word).extractLsb' 10 3)) (jumpAt 0x0031 0x23FE 0x0002).status = false) ∧
    (evaluateCondition (condTable ((0x23FE : Word).extractLsb' 10 3)) (jumpAt 0x0031 0x23FE 0).status = true ∧
      SumFits (faulting (jumpAt 0x0031 0x23FE 0)).params ((jumpAt 0x0031 0x23FE 0).pc + 1)
        (((0x23FE : Word).extractLsb' 0 10).signExtend 16)) ∧
    ((faulting (jumpAt 0xFF00 0x3DFF 0)).mem.word 0xFF00 = 0x3DFF ∧ StreamFits 1 (faulting (jumpAt 0xFF00 0x3DFF 0)) ∧
      evaluateCondition (condTable ((0x3DFF : Word).extractLsb' 10 3)) (jumpAt 0xFF00 0x3DFF 0).status = true ∧
      ¬ SumFits (faulting (jumpAt 0xFF00 0x3DFF 0)).params ((jumpAt 0xFF00 0x3DFF 0).pc + 1)
        (((0x3DFF : Word).extractLsb' 0 10).signExtend 16)) ∧
    (∃ t, step (before 0x3FFF) = .next t) := by
  refine ⟨?_, ?_, ?_, _, rfl⟩
  all_goals ((try unfold StreamFits); (try unfold SumFits); decide)

theorem witness_OtherStatusBitsNeverSteerAJump :
    (0xFEF8 : Word) &&& 0x0107 = (jumpAt 0x0100 0 0).status &&& 0x0107 ∧
    (∃ t, exec (mkJump .notEqual 4) (jumpAt 0x0100 0 0) = .next t) ∧
    (∃ info c, exec (mkJump .notEqual 1) (faulting (jumpAt 0xFFFF 0 0)) = .fault (.raised info c)) :=
  ⟨by decide, ⟨_, rfl⟩, ⟨_, _, rfl⟩⟩

theorem witness_JumpToSelfOnlyFetches :
    (before 0x3FFF).params.reading ≠ .msbFirstLiteral ∧ (before 0x3FFF).mem.word (before 0x3FFF).pc = 0x3FFF ∧
    StreamFits 1 (before 0x3FFF) := ⟨by decide, by decide, .inl rfl⟩

/-- @R5+ to 2(R6) under `fault`: the source reads, the destination fits. -/
theorem double_fits : DoubleFits ⟨5, .indirectIncrement⟩ ⟨6, .indexed⟩ (faulting after) := by
  unfold DoubleFits OperandFits StreamFits SumFits LegalDestination; decide

/-- A source in R4 and a destination in the zero register. -/
theorem double_fits_zero : DoubleFits ⟨4, .direct⟩ ⟨3, .const0⟩ after := by
  unfold DoubleFits OperandFits StreamFits SumFits LegalDestination; decide

theorem witness_MovWordWritesItsSource :
    DoubleFits ⟨5, .indirectIncrement⟩ ⟨6, .indexed⟩ (faulting after) ∧ DoubleFits ⟨4, .direct⟩ ⟨3, .const0⟩ after :=
  ⟨double_fits, double_fits_zero⟩

/-- The pairs of the statement. -/
def writingPairs (src dst : OperandRef) (b : Bool) : List (Instr × DoubleOp) :=
  [(.add src b dst, .add), (.addc src b dst, .addc), (.subc src b dst, .subc), (.sub src b dst, .sub), (.dadd src b dst, .dadd),
    (.bic src b dst, .bic), (.bis src b dst, .bis), (.xor src b dst, .xor), (.and src b dst, .and)]

theorem witness_ResultWritingInstructionsComplete :
    (Instr.and ⟨5, .indirectIncrement⟩ true ⟨6, .indexed⟩, DoubleOp.and) ∈
      writingPairs ⟨5, .indirectIncrement⟩ ⟨6, .indexed⟩ true ∧
    DoubleFits ⟨5, .indirectIncrement⟩ ⟨6, .indexed⟩ (faulting after) := ⟨by decide, double_fits⟩

theorem witness_ComparingInstructionsStoreNothing :
    (Instr.cmp ⟨5, .indirectIncrement⟩ false ⟨6, .indexed⟩, DoubleOp.cmp) ∈
      [(Instr.cmp ⟨5, .indirectIncrement⟩ false ⟨6, .indexed⟩, DoubleOp.cmp),
        (.bit ⟨5, .indirectIncrement⟩ false ⟨6, .indexed⟩, .bit)] ∧
    DoubleFits ⟨5, .indirectIncrement⟩ ⟨6, .indexed⟩ (faulting after) := ⟨by decide, double_fits⟩

/-- The twelve instructions of the statements on failing operands. -/
def doubles (src dst : OperandRef) (b : Bool) : List Instr :=
  [.mov src b dst, .add src b dst, .addc src b dst, .subc src b dst, .sub src b dst, .cmp src b dst, .dadd src b dst,
    .bit src b dst, .bic src b dst, .bis src b dst, .xor src b dst, .and src b dst]

theorem witness_DoubleDestinationFailureUndoesTheSource :
    Instr.bit ⟨5, .indirectIncrement⟩ false ⟨3, .const1⟩ ∈ doubles ⟨5, .indirectIncrement⟩ ⟨3, .const1⟩ false ∧
    OperandFits ⟨5, .indirectIncrement⟩ after ∧ ¬ LegalDestination ⟨3, .const1⟩ ∧
    OperandRef.inOneBitAlphabet ⟨3, .const1⟩ = true := by
  unfold OperandFits StreamFits SumFits LegalDestination; decide

theorem witness_SourceOverflowComesBeforeTheDestination :
    Instr.sub ⟨5, .indexed⟩ false ⟨5, .indexed⟩ ∈ doubles ⟨5, .indexed⟩ ⟨5, .indexed⟩ false ∧
    ¬ OperandFits ⟨5, .indexed⟩ (faulting (after.writeReg 5 0xFFFF)) ∧
    (OperandFits ⟨4, .direct⟩ (faulting (after.writeReg 5 0xFFFF)) ∧ LegalDestination ⟨5, .indexed⟩ ∧
      ¬ OperandFits ⟨5, .indexed⟩ (afterSource ⟨4, .direct⟩ (faulting (after.writeReg 5 0xFFFF)))) := by
  unfold OperandFits StreamFits SumFits LegalDestination; decide

theorem witness_DestinationRoleInstructionsComplete :
    (Instr.sxt true ⟨6, .indexed⟩, SingleOp.sxt) ∈ [(Instr.rrc true ⟨6, .indexed⟩, SingleOp.rrc),
      (.swpb true ⟨6, .indexed⟩, .swpb), (.rra true ⟨6, .indexed⟩, .rra), (.sxt true ⟨6, .indexed⟩, .sxt)] ∧
    LegalDestination ⟨6, .indexed⟩ ∧ OperandFits ⟨6, .indexed⟩ (faulting after) :=
  ⟨by decide, by unfold LegalDestination; decide, indexed_fits⟩

theorem witness_DestinationRoleInstructionsFail :
    Instr.rrc true ⟨5, .indexed⟩ ∈ [Instr.rrc true ⟨5, .indexed⟩, .swpb true ⟨5, .indexed⟩, .rra true ⟨5, .indexed⟩,
      .sxt true ⟨5, .indexed⟩] ∧
    ¬ LegalDestination ⟨5, .indirect⟩ ∧
    (LegalDestination ⟨5, .indexed⟩ ∧ ¬ OperandFits ⟨5, .indexed⟩ (faulting (after.writeReg 5 0xFFFF))) :=
  ⟨by decide, by unfold LegalDestination; decide, by unfold LegalDestination; decide, indexed_overflows⟩

theorem witness_PushHandsOverItsValue : OperandFits ⟨1, .indirectIncrement⟩ after ∧ OperandFits ⟨6, .indexed⟩ (faulting after) :=
  ⟨⟨.inl rfl, fun _ => .inl rfl⟩, indexed_fits⟩

theorem witness_CallHandsOverItsTarget : OperandFits ⟨0, .indirectIncrement⟩ after ∧ OperandFits ⟨6, .indexed⟩ (faulting after) :=
  ⟨⟨.inl rfl, fun _ => .inl rfl⟩, indexed_fits⟩

theorem witness_PushAndCallFailOnOverflowOnly :
    Instr.call false ⟨5, .indexed⟩ ∈ [Instr.push false ⟨5, .indexed⟩, .call false ⟨5, .indexed⟩] ∧
    ¬ OperandFits ⟨5, .indexed⟩ (faulting (after.writeReg 5 0xFFFF)) ∧
    ∃ f, exec (.call false ⟨5, .indexed⟩) (faulting (after.writeReg 5 0xFFFF)) = .fault f :=
  ⟨by decide, indexed_overflows, _, rfl⟩

theorem witness_RetiResolvesNoOperand : after.params.retiPc = .followingWord := by decide

/-- RETI with a field that names {6, Indexed}, the word 0x0002 after it, and the word of ADD after it. -/
theorem witness_RetiIsFollowedByTheNextWord :
    (before 0x1316).params.retiPc = .followingWord ∧ StreamFits 2 (before 0x1316) ∧
    decode (before 0x1316).params ((before 0x1316).mem.word (before 0x1316).pc) = .ok (.reti false ⟨6, .indexed⟩) ∧
    decode (before 0x1316).params (((before 0x1316).writeMem 0x0011 0x5315).mem.word ((before 0x1316).pc + 1)) =
      .ok (.add ⟨3, .const1⟩ false ⟨5, .direct⟩) := ⟨by decide, .inl rfl, by decide, by decide⟩

theorem witness_WidthFlagChangesNoResolution :
    (∃ t, exec (.xor ⟨4, .direct⟩ false ⟨5, .direct⟩) after = .next t) ∧
    (∃ f, exec (.xor ⟨4, .direct⟩ false ⟨3, .const1⟩) after = .fault f) := ⟨⟨_, rfl⟩, ⟨_, rfl⟩⟩

/-- A step with three fetches, and one whose data read comes before its destination's extension word. -/
theorem witness_AccessesComeInTheFixedOrder :
    (decode (before 0x40B0).params ((before 0x40B0).mem.word (before 0x40B0).pc) =
      .ok (.mov ⟨0, .indirectIncrement⟩ false ⟨0, .indexed⟩) ∧ ∃ t, step (before 0x40B0) = .next t) ∧
    (decode (before 0x45B5).params ((before 0x45B5).mem.word (before 0x45B5).pc) =
      .ok (.mov ⟨5, .indirectIncrement⟩ false ⟨5, .indexed⟩) ∧ ∃ t, step (before 0x45B5) = .next t) :=
  ⟨⟨by decide, _, rfl⟩, ⟨by decide, _, rfl⟩⟩

/-- R42: the source's read comes before the destination's extension word. -/
theorem test_accessOrder : (handed (step (before 0x45B5))).map Prod.snd =
    some [.fetch 0x0010, .read 0x0300, .fetch 0x0011] := by decide

theorem witness_EveryStepKeepsTheInvariant :
    ((before 0x45B5).Inv ∧ ∃ t, step (before 0x45B5) = .next t) ∧
    ((before 0x45B3).Inv ∧ ∃ info c, step (before 0x45B3) = .fault (.raised info c)) :=
  ⟨⟨⟨by decide, by decide⟩, _, rfl⟩, ⟨⟨by decide, by decide⟩, _, _, rfl⟩⟩

theorem witness_FailuresLeaveNoHalfDoneInstruction :
    (∃ c, step (before 0x45B3) = .fault (.raised (.invalidDestinationMode 3 .const1) c)) ∧
    (∃ c, step (State.setPc (faulting after) 0xFFFF) = .fault (.raised (.addressOverflow 0xFFFF) c)) := ⟨⟨_, rfl⟩, ⟨_, rfl⟩⟩

theorem witness_StepsGoOnOrFailByTheTaxonomy :
    (before 0x1380).params.addrOverflow = .wrap ∧ ∃ info c, step (before 0x1380) = .fault (.raised info c) := ⟨rfl, _, _, rfl⟩

theorem witness_InvalidDestinationArisesInTwoFamilies :
    ((Instr.cmp ⟨3, .const0⟩ false ⟨3, .const1⟩).wellFormed .default = true ∧
      ∃ c, exec (.cmp ⟨3, .const0⟩ false ⟨3, .const1⟩) after = .fault (.raised (.invalidDestinationMode 3 .const1) c)) ∧
    ((Instr.sxt true ⟨2, .const8⟩).wellFormed .default = true ∧
      ∃ c, exec (.sxt true ⟨2, .const8⟩) after = .fault (.raised (.invalidDestinationMode 2 .const8) c)) ∧
    OperandFits ⟨5, .indirectIncrement⟩ after :=
  ⟨⟨by decide, _, rfl⟩, ⟨by decide, _, rfl⟩, .inl rfl, fun _ => .inl rfl⟩

theorem witness_NormalEndIsTheHaltLoop : ∃ t, referenceTrace 1 (before 0x3FFF) = .normal t := ⟨_, rfl⟩

/-- The trace of MOV #0, R3 at 0x0010 goes on to its second step, which is the word 0x0002: a fault. -/
theorem trace_goes_on : ∃ s', TraceReaches 1 (before 0x4303) s' :=
  ⟨_, _, rfl, by decide, fun h' h => by cases h; decide, rfl⟩

theorem witness_TracesAreRefusedOutsideTheReferenceLayer :
    (∃ h, referenceTrace 1 (before 0x5315) = .refused h) ∧
    (∃ t, (0 < 1 ∧ TraceReaches 0 (before 0x5315) (before 0x5315)) ∧ step (before 0x5315) = .next t ∧
      (before 0x5315).mem.word (before 0x5315).pc ≠ 0x3FFF ∧ ¬ HasReferenceMeaning t.handoff) ∧
    (∃ f, referenceTrace 1 (before 0x1380) = .abnormal f) ∧ (∃ f, referenceTrace 2 (before 0x4303) = .abnormal f) ∧
    (∃ s', TraceReaches 1 (before 0x4303) s') :=
  ⟨⟨_, rfl⟩, ⟨_, ⟨by decide, rfl⟩, rfl, by decide, fun h => absurd (h _ rfl).1 (by decide)⟩, ⟨_, rfl⟩, ⟨_, rfl⟩, trace_goes_on⟩

theorem witness_TracesGoOnUntilTheHaltWord :
    (∃ t, referenceTrace 1 (before 0x3FFF) = .normal t) ∧
    (∃ t, TraceReaches 0 (before 0x3FFF) (before 0x3FFF) ∧ (before 0x3FFF).mem.word (before 0x3FFF).pc = 0x3FFF ∧
      step (before 0x3FFF) = .next t) ∧
    (∃ t, exec (.mov ⟨4, .direct⟩ false ⟨5, .direct⟩) after = .next t) ∧
    (after.handoff = none ∧ ∃ t, exec (mkJump .always 1) after = .next t) :=
  ⟨⟨_, rfl⟩, ⟨_, rfl, by decide, rfl⟩, ⟨_, rfl⟩, ⟨by decide, _, rfl⟩⟩

end Sys2Proof.Tests
end

section
/-! SUPPORT. The statements of 10_state.md about the stream, the zero register and what the operand resolver writes. -/

namespace Sys2Proof.Machine

/-! ### The stream (10_state.md R20) -/

/-- A `StreamNext()` that answers gives the word at the pc and leaves the context one word on. -/
theorem State.streamNext_ok {s t : State} {w : Word} (h : s.streamNext = .ok (w, t)) :
    w = s.mem.word s.pc ∧ t = s.afterStream := by
  rcases streamNext_cases s with ⟨-, he⟩ | ⟨-, -, -, he⟩
  · rw [he] at h
    cases h
    exact ⟨rfl, rfl⟩
  · rw [he] at h
    cases h

/-- The pc after a stream word, as a number. -/
theorem State.afterStream_pc_toNat (s : State) : s.afterStream.pc.toNat = (s.pc.toNat + 1) % 65536 := by
  rw [State.pc_afterStream, BitVec.toNat_add]
  rfl

/-- Settles O7, from what `StreamNext()` can answer: it answers exactly where a stream word fits. -/
theorem streamAdvancesPcByOneWord : Obligations.StreamAdvancesPcByOneWord := by
  refine ⟨?_, ?_, ?_, ?_⟩
  · intro s t w h
    rw [(State.streamNext_ok h).2, State.afterStream_pc_toNat]
  · intro s hp
    exact ⟨_, _, streamNext_of_fits ((streamFits_one s).2 (.inl hp))⟩
  · intro s hp hpc
    have hn : ¬ StreamFits 1 s := by simp [streamFits_one, hp, hpc]
    exact (streamNext_of_not_fits hn).1
  · intro s _ hpc
    exact ⟨_, _, streamNext_of_fits ((streamFits_one s).2 (.inr hpc))⟩

/-! ### The zero register (10_state.md R15) -/

@[simp] theorem layerPush_zeroCell (s : State) : (layerPush s).regs[3] = s.regs[3] := by simp [layerPush]
@[simp] theorem layerCall_zeroCell (s : State) : (layerCall s).regs[3] = s.regs[3] := by simp [layerCall]
@[simp] theorem layerReti_zeroCell (s : State) : (layerReti s).regs[3] = s.regs[3] := by simp [layerReti]

/-- The zero register's stored cell is 0 whatever INIT_CONTEXT gives for it (10_state.md R29). -/
@[simp] theorem State.ofContext_zeroCell (p : Config.Params) (regs : Vector Word 16) (mem : Memory) :
    (State.ofContext p regs mem).regs[3] = 0 := by
  simp [State.ofContext]

/-- No instruction that goes on writes the zero register's stored cell. -/
theorem exec_keeps_zeroCell {i : Instr} {s t : State} (h : exec i s = .next t) : t.regs[3] = s.regs[3] := by
  rcases exec_next h with
    ⟨-, rfl | ⟨target, rfl⟩⟩ | ⟨b, dst, -, rfl⟩ | ⟨op, v, s1, ho, -, hsrc, ht⟩ | ⟨op, loc, s1, ho, -, hdst, rfl⟩ |
    ⟨src, dst, v, loc, s1, s2, ho, -, hsrc, hdst, ht⟩
  · rfl
  · exact State.setPc_zeroCell s target
  · simp
  · obtain ⟨-, -, -, -, hz⟩ := resolveSource_keeps hsrc
    rcases ht with rfl | rfl <;> simp [hz]
  · obtain ⟨-, -, -, -, hz⟩ := resolveDestination_keeps hdst
    simp [hz]
  · obtain ⟨-, -, -, -, hz1⟩ := resolveSource_keeps hsrc
    obtain ⟨-, -, -, -, hz2⟩ := resolveDestination_keeps hdst
    rcases ht with rfl | rfl | rfl <;> simp [hz1, hz2]

/-- A step that goes on ran an instruction in ctx0. -/
theorem step_next {s t : State} (h : step s = .next t) : ∃ i, exec i s.clearHandoff.afterStream = .next t := by
  rcases step_cases s with ⟨-, -, -, he⟩ | ⟨-, u, -, he⟩ | ⟨-, i, -, he⟩
  · rw [he] at h; cases h
  · rw [he] at h; cases h
  · exact ⟨i, he ▸ h⟩

/-- A failure leaves the state before the fetch, or ctx0 (60_exceptions.md R152). -/
theorem step_fault {s c : State} {info : FaultInfo} (h : step s = .fault (.raised info c)) :
    c = s ∨ c = s.clearHandoff.afterStream := by
  rcases step_cases s with ⟨-, -, -, he⟩ | ⟨-, u, -, he⟩ | ⟨-, i, -, he⟩
  · rw [he] at h; cases h
    exact .inl rfl
  · rw [he] at h; cases h
    exact .inr rfl
  · rw [he] at h
    rcases exec_not_next (i := i) (s := s.clearHandoff.afterStream) with ⟨t, hx⟩ | ⟨info', hx⟩
    · rw [hx] at h; cases h
    · rw [hx] at h; cases h
      exact .inr rfl

/-- ctx0 has the zero register's stored cell of the state before the fetch. -/
theorem ctx0_zeroCell (s : State) : s.clearHandoff.afterStream.regs[3] = s.regs[3] := by simp

/-- Settles O11: no operation writes the stored cell, and a read does not look at it. -/
theorem zeroRegisterIsAlwaysZero : Obligations.ZeroRegisterIsAlwaysZero := by
  refine ⟨State.readReg_zero, State.writeReg_zero, State.ofContext_zeroCell, ?_, ?_⟩
  · intro s t hz h
    obtain ⟨i, hx⟩ := step_next h
    rw [exec_keeps_zeroCell hx, ctx0_zeroCell, hz]
  · intro s c info hz h
    rcases step_fault h with rfl | rfl
    · exact hz
    · rw [ctx0_zeroCell, hz]

/-! ### What the operand resolver writes (10_state.md R21) -/

/-- Registers 2 and 3 have no IndirectIncrement tag (30_encoding.md R62, R63). -/
theorem OperandRef.reg_of_indirectIncrement {op : OperandRef} (ha : op.inAlphabet = true)
    (hm : op.mode = .indirectIncrement) : op.reg ≠ 2 ∧ op.reg ≠ 3 := by
  constructor <;> intro hr <;> simp [OperandRef.inAlphabet, hr, hm] at ha

/-- A source never steps the status register, whose alphabet has no IndirectIncrement tag. -/
theorem status_not_stepped {op : OperandRef} (ha : op.inAlphabet = true) : (2 : Reg) ∉ 0 :: steppedRegs op := by
  unfold steppedRegs
  split
  · rename_i hm
    have hr := (OperandRef.reg_of_indirectIncrement ha hm).1
    simpa using hr.symm
  · decide

/-- An IndirectIncrement source off the pc reads at its register, and then steps that register by one word
(40_operand_resolver.md R90). -/
theorem resolveSource_indirectIncrement {op : OperandRef} (s : State) (hm : op.mode = .indirectIncrement)
    (h0 : op.reg ≠ 0) :
    resolveSource op s = .ok (s.mem.word (s.readReg op.reg),
      (s.afterRead (s.readReg op.reg)).writeReg op.reg (s.readReg op.reg + 1)) := by
  simp [resolveSource, hm, h0]

/-- Settles O26: the frames are those of the resolver's laws, and the alphabets of registers 2 and 3 have no tag that steps. -/
theorem resolutionWritesPcAndSteppedRegisterOnly : Obligations.ResolutionWritesPcAndSteppedRegisterOnly := by
  constructor
  · intro op s t v ha h
    have hregs := resolveSource_regs h
    obtain ⟨-, -, -, -, hz⟩ := resolveSource_keeps h
    refine ⟨hregs, hregs 2 (status_not_stepped ha), hz, ?_⟩
    intro hm h0
    obtain ⟨h2, h3⟩ := OperandRef.reg_of_indirectIncrement ha hm
    rw [resolveSource_indirectIncrement s hm h0] at h
    cases h
    exact ⟨State.readReg_writeReg_same _ _ _ h3, h2, h3⟩
  · intro op s t loc h
    obtain ⟨-, -, -, -, hz⟩ := resolveDestination_keeps h
    exact ⟨resolveDestination_regs h, hz⟩

end Sys2Proof.Machine
end

section
/-! SUPPORT. The statements of 20_memory.md about a fetch after a write (R45) and the order of a step's accesses (R42). -/

namespace Sys2Proof.Machine

/-! ### A fetch sees the last write (R45) -/

/-- The instruction-word fetch answers the word at the pc wherever a stream word fits. -/
theorem fetchInstruction_of_fits {s : State} (h : StreamFits 1 s) :
    s.fetchInstruction = .ok (s.mem.word s.pc, s.clearHandoff.afterStream) :=
  streamNext_of_fits (s := s.clearHandoff) h

/-- Settles O13: both fetches answer the word memory holds at the pc, which is the one written. -/
theorem fetchSeesTheLastWrite : Obligations.FetchSeesTheLastWrite := by
  intro s t a v hpc hword hfits
  rw [State.writeLoc_mem, State.writeMem_mem, Memory.word_setWord_same] at hword
  subst hpc hword
  constructor
  · exact ⟨_, fetchInstruction_of_fits hfits, State.pc_afterStream _⟩
  · exact ⟨_, streamNext_of_fits hfits, State.pc_afterStream _⟩

/-! ### What an instruction's operands access (R42) -/

/-- The accesses of an instruction in the context `s` its operands are resolved in: the source's extension word, the source's
data read and the destination's extension word. -/
def operandAccesses (i : Instr) (s : State) : List Event :=
  extFetches (extWordsOf (sourceOperand i)) s.pc ++ dataReads (sourceOperand i) s ++
    extFetches (extWordsOf (destinationOperand i)) (s.pc + BitVec.ofNat 16 (extWordsOf (sourceOperand i)))

@[simp] theorem extWordsOf_none : extWordsOf none = 0 := rfl
@[simp] theorem extWordsOf_some (op : OperandRef) : extWordsOf (some op) = op.extWords := rfl
@[simp] theorem extFetches_zero (a : Word) : extFetches 0 a = [] := rfl
@[simp] theorem dataReads_none (s : State) : dataReads none s = [] := rfl

/-- The operand accesses do not look at the hand-over. -/
@[simp] theorem operandAccesses_clearHandoff (i : Instr) (s : State) :
    operandAccesses i s.clearHandoff = operandAccesses i s := rfl

/-- A jump resolves no operand (42_jump.md R120). -/
theorem jump_resolves_no_operand {i : Instr} (h : i.format = .jump) :
    sourceOperand i = none ∧ destinationOperand i = none := by
  cases i <;> cases h <;> exact ⟨rfl, rfl⟩

/-- A source moves the pc past its extension words (30_encoding.md R71): the register it steps is not the pc. -/
theorem resolveSource_pc {op : OperandRef} {s : State} {v : Word} {t : State} (h : resolveSource op s = .ok (v, t)) :
    t.pc = s.pc + BitVec.ofNat 16 op.extWords := by
  rcases resolveSource_context h with
    ⟨rfl, hn⟩ | ⟨rfl, hn, -⟩ | ⟨a, rfl, hn⟩ | ⟨a, rfl, hn, -⟩ | ⟨a, w, rfl, hn, -, h0⟩
  · simp [hn]
  · simp [hn]
  · simp [hn]
  · simp [hn]
  · simp [hn, h0]

@[simp] theorem layerPush_ev (s : State) : (layerPush s).ev = s.ev := by simp [layerPush]
@[simp] theorem layerCall_ev (s : State) : (layerCall s).ev = s.ev := by simp [layerCall]
@[simp] theorem layerReti_ev (s : State) : (layerReti s).ev = s.ev := by simp [layerReti]

/-- An instruction that goes on records the accesses of its operands, in order, and nothing else: no layer records an event. -/
theorem exec_events {i : Instr} {s t : State} (h : exec i s = .next t) : t.ev = s.ev ++ operandAccesses i s := by
  unfold operandAccesses
  rcases exec_next h with
    ⟨hj, ht⟩ | ⟨b, dst, rfl, rfl⟩ | ⟨op, v, s1, ho, ⟨hs, hd⟩, hsrc, ht⟩ | ⟨op, loc, s1, ho, ⟨hs, hd⟩, hdst, rfl⟩ |
    ⟨src, dst, v, loc, s1, s2, ho, ⟨hs, hd⟩, hsrc, hdst, ht⟩
  · obtain ⟨hs, hd⟩ := jump_resolves_no_operand hj
    rcases ht with rfl | ⟨target, rfl⟩ <;> simp [hs, hd]
  · simp [sourceOperand, destinationOperand]
  · have hev := resolveSource_events hsrc
    rcases ht with rfl | rfl <;> simp [hs, hd, hev]
  · simp [hs, hd, resolveDestination_events hdst]
  · have hev : s2.ev = s.ev ++ (extFetches src.extWords s.pc ++ dataReads (some src) s) ++
        extFetches dst.extWords (s.pc + BitVec.ofNat 16 src.extWords) := by
      rw [resolveDestination_events hdst, resolveSource_events hsrc, resolveSource_pc hsrc]
    rcases ht with rfl | rfl | rfl <;> simp [hs, hd, hev]

/-! ### How many accesses there are (R42) -/

theorem countP_isFetch_extFetches_le (n : Nat) (a : Word) : (extFetches n a).countP Event.isFetch ≤ 1 := by
  unfold extFetches; split <;> simp [Event.isFetch]

theorem countP_isRead_extFetches (n : Nat) (a : Word) : (extFetches n a).countP Event.isRead = 0 := by
  unfold extFetches; split <;> simp [Event.isRead]

theorem countP_isFetch_dataReads (op : Option OperandRef) (s : State) : (dataReads op s).countP Event.isFetch = 0 := by
  unfold dataReads; split
  · rfl
  · split <;> simp [Event.isFetch]

theorem countP_isRead_dataReads_le (op : Option OperandRef) (s : State) : (dataReads op s).countP Event.isRead ≤ 1 := by
  unfold dataReads; split
  · simp
  · split <;> simp [Event.isRead]

/-- The operands of an instruction make at most two fetches, one for each extension word. -/
theorem countP_isFetch_operandAccesses_le (i : Instr) (s : State) :
    (operandAccesses i s).countP Event.isFetch ≤ 2 := by
  simp only [operandAccesses, List.countP_append, countP_isFetch_dataReads]
  exact Nat.add_le_add (countP_isFetch_extFetches_le _ _) (countP_isFetch_extFetches_le _ _)

/-- The operands of an instruction make at most one data read, the source's. -/
theorem countP_isRead_operandAccesses_le (i : Instr) (s : State) :
    (operandAccesses i s).countP Event.isRead ≤ 1 := by
  simp only [operandAccesses, List.countP_append, countP_isRead_extFetches, Nat.zero_add, Nat.add_zero]
  exact countP_isRead_dataReads_le _ _

/-! ### The accesses of a step (R42) -/

/-- A step that goes on decoded the word at its pc and ran that instruction in ctx0 (70_reset_and_hazards.md R170). -/
theorem step_next_decoded {s t : State} (h : step s = .next t) :
    ∃ i, decode s.params (s.mem.word s.pc) = .ok i ∧ exec i s.clearHandoff.afterStream = .next t := by
  rcases step_cases s with ⟨-, -, -, he⟩ | ⟨-, u, -, he⟩ | ⟨-, i, hi, he⟩
  · rw [he] at h; cases h
  · rw [he] at h; cases h
  · exact ⟨i, hi, he ▸ h⟩

/-- Clearing the hand-over before the stream word or after it is the same (log entry 6). -/
theorem State.clearHandoff_afterStream (s : State) : s.clearHandoff.afterStream = s.afterStream.clearHandoff := rfl

/-- A step that goes on records the instruction-word fetch and then what the decoded instruction's operands access. -/
theorem step_events {s t : State} {i : Instr} (hi : decode s.params (s.mem.word s.pc) = .ok i) (h : step s = .next t) :
    t.ev = s.ev ++ .fetch s.pc :: operandAccesses i s.afterStream := by
  obtain ⟨j, hj, hx⟩ := step_next_decoded h
  obtain rfl : i = j := Except.ok.inj (hi.symm.trans hj)
  rw [exec_events hx, State.clearHandoff_afterStream, operandAccesses_clearHandoff]
  simp

/-- Settles O46: the list is the step's event law, and its parts bound the counts. -/
theorem accessesComeInTheFixedOrder : Obligations.AccessesComeInTheFixedOrder := by
  constructor
  · intro s t i hi h
    rw [step_events hi h, operandAccesses, State.pc_afterStream]
  · intro s t h
    obtain ⟨i, hi, -⟩ := step_next_decoded h
    refine ⟨_, step_events hi h, ?_, ?_⟩
    · rw [List.countP_cons_of_pos rfl]
      exact Nat.succ_le_succ (countP_isFetch_operandAccesses_le i _)
    · rw [List.countP_cons_of_neg Bool.false_ne_true]
      exact countP_isRead_operandAccesses_le i _

end Sys2Proof.Machine
end

section
/-! SUPPORT. The statements of 30_encoding.md about the decoder and the encoder as inverses (R73) and the alphabets (R64). -/

namespace Sys2Proof

/-! ### The three shapes of an instruction (R57) -/

/-- Every instruction is built by the constructor of its format. -/
theorem Instr.eq_mk (i : Instr) :
    (∃ o b dst, i = mkSingle o b dst) ∨ (∃ c offset, i = mkJump c offset) ∨ ∃ o src b dst, i = mkDouble o src b dst := by
  cases i with
  | rrc b dst => exact .inl ⟨.rrc, b, dst, rfl⟩
  | swpb b dst => exact .inl ⟨.swpb, b, dst, rfl⟩
  | rra b dst => exact .inl ⟨.rra, b, dst, rfl⟩
  | sxt b dst => exact .inl ⟨.sxt, b, dst, rfl⟩
  | push b dst => exact .inl ⟨.push, b, dst, rfl⟩
  | call b dst => exact .inl ⟨.call, b, dst, rfl⟩
  | reti b dst => exact .inl ⟨.reti, b, dst, rfl⟩
  | jne offset => exact .inr (.inl ⟨.notEqual, offset, rfl⟩)
  | jeq offset => exact .inr (.inl ⟨.equal, offset, rfl⟩)
  | jnc offset => exact .inr (.inl ⟨.lower, offset, rfl⟩)
  | jc offset => exact .inr (.inl ⟨.carrySet, offset, rfl⟩)
  | jn offset => exact .inr (.inl ⟨.negative, offset, rfl⟩)
  | jge offset => exact .inr (.inl ⟨.greaterOrEqual, offset, rfl⟩)
  | jl offset => exact .inr (.inl ⟨.lessThan, offset, rfl⟩)
  | jmp offset => exact .inr (.inl ⟨.always, offset, rfl⟩)
  | mov src b dst => exact .inr (.inr ⟨.mov, src, b, dst, rfl⟩)
  | add src b dst => exact .inr (.inr ⟨.add, src, b, dst, rfl⟩)
  | addc src b dst => exact .inr (.inr ⟨.addc, src, b, dst, rfl⟩)
  | subc src b dst => exact .inr (.inr ⟨.subc, src, b, dst, rfl⟩)
  | sub src b dst => exact .inr (.inr ⟨.sub, src, b, dst, rfl⟩)
  | cmp src b dst => exact .inr (.inr ⟨.cmp, src, b, dst, rfl⟩)
  | dadd src b dst => exact .inr (.inr ⟨.dadd, src, b, dst, rfl⟩)
  | bit src b dst => exact .inr (.inr ⟨.bit, src, b, dst, rfl⟩)
  | bic src b dst => exact .inr (.inr ⟨.bic, src, b, dst, rfl⟩)
  | bis src b dst => exact .inr (.inr ⟨.bis, src, b, dst, rfl⟩)
  | xor src b dst => exact .inr (.inr ⟨.xor, src, b, dst, rfl⟩)
  | and src b dst => exact .inr (.inr ⟨.and, src, b, dst, rfl⟩)

section
variable (p : Config.Params) (c : Cond) (o : SingleOp) (d : DoubleOp) (src dst : OperandRef) (b : Bool) (offset : Word)

@[simp] theorem encode_mkSingle : encode p (mkSingle o b dst) = encodeSingle p o b dst := by cases o <;> rfl
@[simp] theorem encode_mkJump : encode p (mkJump c offset) = encodeJump p c offset := by cases c <;> rfl
@[simp] theorem encode_mkDouble : encode p (mkDouble d src b dst) = encodeDouble d src b dst := by cases d <;> rfl

@[simp] theorem format_mkSingle : (mkSingle o b dst).format = .singleOperand := by cases o <;> rfl
@[simp] theorem format_mkJump : (mkJump c offset).format = .jump := by cases c <;> rfl
@[simp] theorem format_mkDouble : (mkDouble d src b dst).format = .doubleOperand := by cases d <;> rfl

@[simp] theorem operands_mkSingle : (mkSingle o b dst).operands = [dst] := by cases o <;> rfl
@[simp] theorem operands_mkJump : (mkJump c offset).operands = [] := by cases c <;> rfl
@[simp] theorem operands_mkDouble : (mkDouble d src b dst).operands = [src, dst] := by cases d <;> rfl

theorem wellFormed_mkSingle : (mkSingle o b dst).wellFormed p = singleFits p b dst := by cases o <;> rfl

/-- JNE alone has no word under `lsb_first_literal`. -/
theorem wellFormed_mkJump : (mkJump c offset).wellFormed p = true ↔
    offsetFits offset = true ∧ (c ≠ .notEqual ∨ p.reading ≠ .lsbFirstLiteral) := by
  cases c <;> simp [mkJump, Instr.wellFormed]

/-- SUB and CMP alone have no word under `msb_first_literal`. -/
theorem wellFormed_mkDouble : (mkDouble d src b dst).wellFormed p = true ↔
    doubleFits src dst = true ∧ ((d ≠ .sub ∧ d ≠ .cmp) ∨ p.reading ≠ .msbFirstLiteral) := by
  cases d <;> simp [mkDouble, Instr.wellFormed]

end

/-! ### What the decoder can answer (R57) -/

/-- Everything `decode` answers with an instruction: the format by its pattern, the opcode by its table, the fields. -/
theorem decode_ok_cases {p : Config.Params} {w : Word} {i : Instr} (h : decode p w = .ok i) :
    (field w 10 6 = singlePattern p.reading ∧ ∃ o, singleOpTable (field w 7 3) = some o ∧
      i = mkSingle o (w.getLsbD (singleBwPos p)) (operandOf (field w 0 4) (field w 4 2))) ∨
    (field w 10 6 ≠ singlePattern p.reading ∧ field w 13 3 = jumpPattern p.reading ∧
      i = mkJump (condTable (field w 10 3)) (sext10 (field w 0 10))) ∨
    (field w 13 3 ≠ jumpPattern p.reading ∧ ∃ o, doubleOpTable (field w 12 4) = some o ∧
      i = mkDouble o (operandOf (field w 8 4) (field w 4 2)) (w.getLsbD 6)
        (operandOf (field w 0 4) ((field w 7 1).zeroExtend 2))) := by
  rw [decode, classify_by_fields] at h
  by_cases hs : field w 10 6 = singlePattern p.reading
  · rw [if_pos hs] at h
    refine .inl ⟨hs, ?_⟩
    simp only [decodeSingle] at h
    split at h
    · cases h
    · next o ho => exact ⟨o, ho, (Except.ok.inj h).symm⟩
  · rw [if_neg hs] at h
    by_cases hj : field w 13 3 = jumpPattern p.reading
    · rw [if_pos hj] at h
      exact .inr (.inl ⟨hs, hj, (Except.ok.inj h).symm⟩)
    · rw [if_neg hj] at h
      refine .inr (.inr ⟨hj, ?_⟩)
      simp only [decodeDouble] at h
      split at h
      · cases h
      · next o ho => exact ⟨o, ho, (Except.ok.inj h).symm⟩

/-! ### Operands (R60 to R64) -/

@[simp] theorem codeOfTag_operandOf (f : BitVec 4) (c : BitVec 2) : codeOfTag (operandOf f c).mode = c :=
  codeOfTag_modeOf _ c

@[simp] theorem fieldOfReg_operandOf (f : BitVec 4) (c : BitVec 2) : fieldOfReg (operandOf f c).reg = f := rfl

theorem inAlphabet_operandOf (f : BitVec 4) (c : BitVec 2) : (operandOf f c).inAlphabet = true := inAlphabet_modeOf _ c

/-- An operand in its register's alphabet is read back from its register field and mode code. -/
theorem operandOf_codeOfTag {op : OperandRef} (h : op.inAlphabet = true) :
    operandOf (fieldOfReg op.reg) (codeOfTag op.mode) = op := by
  rw [operandOf, regOfField_fieldOfReg, modeOf_codeOfTag h]

/-- An operand in its register's one-bit alphabet is read back from its register field and mode bit (R56). -/
theorem operandOf_adBit {op : OperandRef} (h : op.inOneBitAlphabet = true) :
    operandOf (fieldOfReg op.reg) ((adBit op.mode).zeroExtend 2) = op := by
  rw [operandOf, regOfField_fieldOfReg, modeOf_adBit h]

/-- A tag of the one-bit alphabet is a tag of the register's alphabet. -/
theorem inAlphabet_of_inOneBitAlphabet {op : OperandRef} (h : op.inOneBitAlphabet = true) : op.inAlphabet = true := by
  rw [← operandOf_adBit h]
  exact inAlphabet_operandOf _ _

/-! ### Offsets (R54) -/

theorem toInt_sext10 (f : BitVec 10) : (sext10 f).toInt = f.toInt := BitVec.toInt_signExtend_of_le (by decide)

theorem offsetFits_iff (offset : Word) : offsetFits offset = true ↔ -512 ≤ offset.toInt ∧ offset.toInt ≤ 511 := by
  simp [offsetFits]

/-- A sign-extended field lies in the ten-bit range. -/
theorem offsetFits_sext10 (f : BitVec 10) : offsetFits (sext10 f) = true := by
  rw [offsetFits_iff, toInt_sext10]
  have hlo := BitVec.le_toInt f
  have hhi := BitVec.toInt_lt (x := f)
  omega

/-- Sign extension keeps the ten bits. -/
@[simp] theorem field_sext10 (f : BitVec 10) : field (sext10 f) 0 10 = f := by
  ext k hk
  have h16 : k < 16 := by omega
  simp [field, sext10, BitVec.getElem_signExtend, hk, h16]

/-- An offset in the ten-bit range is the sign extension of its ten bits. -/
theorem sext10_field {offset : Word} (h : offsetFits offset = true) : sext10 (field offset 0 10) = offset := by
  obtain ⟨hlo, hhi⟩ := (offsetFits_iff offset).1 h
  have hmod : (offset.toNat : Int).bmod (2 ^ 10) = offset.toInt.bmod (2 ^ 10) := by
    rw [BitVec.toInt_eq_toNat_bmod, Int.bmod_bmod_of_dvd (by decide)]
  apply BitVec.eq_of_toInt_eq
  rw [toInt_sext10, field, BitVec.toInt_extractLsb', Nat.shiftRight_zero, hmod]
  exact Int.bmod_eq_of_le (by simpa using hlo) (by omega)

/-! ### A word as its fields (R52, R54, R55) -/

/-- A bit of a field is a bit of the word. -/
theorem getLsbD_field (w : Word) (lo : Nat) {n k : Nat} (h : k < n) : (field w lo n).getLsbD k = w.getLsbD (lo + k) := by
  simp [field, h]

/-- A one-bit field is its bit. -/
theorem ofBool_getLsbD (w : Word) (k : Nat) : BitVec.ofBool (w.getLsbD k) = field w k 1 := by
  ext j hj
  obtain rfl : j = 0 := by omega
  simp [field]

/-- Adjacent fields join to one field. -/
theorem field_append_field (w : Word) {hi lo m n : Nat} (h : hi = lo + n) :
    field w hi m ++ field w lo n = field w lo (m + n) :=
  BitVec.extractLsb'_append_extractLsb'_eq_extractLsb' h

theorem field_self (w : Word) : field w 0 16 = w := BitVec.extractLsb'_eq_self

/-- A word is its five SingleOperand fields. -/
theorem single_fields (w : Word) : field w 10 6 ++ field w 7 3 ++ field w 6 1 ++ field w 4 2 ++ field w 0 4 = w := by
  rw [field_append_field w (by rfl), field_append_field w (by rfl), field_append_field w (by rfl),
    field_append_field w (by rfl), field_self]

/-- A word is its three Jump fields. -/
theorem jump_fields (w : Word) : field w 13 3 ++ field w 10 3 ++ field w 0 10 = w := by
  rw [field_append_field w (by rfl), field_append_field w (by rfl), field_self]

/-- A word is its six DoubleOperand fields. -/
theorem double_fields (w : Word) :
    field w 12 4 ++ field w 8 4 ++ field w 7 1 ++ field w 6 1 ++ field w 4 2 ++ field w 0 4 = w := by
  rw [field_append_field w (by rfl), field_append_field w (by rfl), field_append_field w (by rfl),
    field_append_field w (by rfl), field_append_field w (by rfl), field_self]

/-- Setting bit 6 forgets what it was. -/
theorem or_bit6 (pat : BitVec 6) (op : BitVec 3) (x : BitVec 1) (code : BitVec 2) (r : BitVec 4) :
    (pat ++ op ++ x ++ code ++ r : Word) ||| 0x0040 = pat ++ op ++ 1#1 ++ code ++ r := by
  have e : (0x0040 : Word) = 0#6 ++ 0#3 ++ 1#1 ++ 0#2 ++ 0#4 := rfl
  have hx : x ||| 1#1 = 1#1 := by revert x; decide
  rw [e, BitVec.or_append, BitVec.or_append, BitVec.or_append, BitVec.or_append, hx]
  simp

/-! ### Decoding an encoded instruction (R73) -/

section
variable (p : Config.Params) (b : Bool) (src dst : OperandRef)

theorem encodeSingle_opcode (o : SingleOp) : field (encodeSingle p o b dst) 7 3 = codeOfSingleOp o := by
  simp only [field, encodeSingle]
  rw [field_high _ _ (by decide), field_high _ _ (by decide), field_high _ _ (by decide), BitVec.extractLsb'_append_eq_right]

theorem encodeSingle_bit6 (o : SingleOp) : field (encodeSingle p o b dst) 6 1 = singleBit6 p b := by
  simp only [field, encodeSingle]
  rw [field_high _ _ (by decide), field_high _ _ (by decide), BitVec.extractLsb'_append_eq_right]

theorem encodeSingle_code (o : SingleOp) : field (encodeSingle p o b dst) 4 2 = codeOfTag dst.mode := by
  simp only [field, encodeSingle]
  rw [field_high _ _ (by decide), BitVec.extractLsb'_append_eq_right]

theorem encodeSingle_reg (o : SingleOp) : field (encodeSingle p o b dst) 0 4 = fieldOfReg dst.reg := by
  simp only [field, encodeSingle]
  rw [BitVec.extractLsb'_append_eq_right]

theorem encodeJump_offset (c : Cond) (offset : Word) : field (encodeJump p c offset) 0 10 = field offset 0 10 := by
  simp only [field, encodeJump]
  rw [BitVec.extractLsb'_append_eq_right]

theorem encodeDouble_srcReg (o : DoubleOp) : field (encodeDouble o src b dst) 8 4 = fieldOfReg src.reg := by
  simp only [field, encodeDouble]
  rw [field_high _ _ (by decide), field_high _ _ (by decide), field_high _ _ (by decide), field_high _ _ (by decide),
    BitVec.extractLsb'_append_eq_right]

theorem encodeDouble_adBit (o : DoubleOp) : field (encodeDouble o src b dst) 7 1 = adBit dst.mode := by
  simp only [field, encodeDouble]
  rw [field_high _ _ (by decide), field_high _ _ (by decide), field_high _ _ (by decide), BitVec.extractLsb'_append_eq_right]

theorem encodeDouble_bit6 (o : DoubleOp) : field (encodeDouble o src b dst) 6 1 = BitVec.ofBool b := by
  simp only [field, encodeDouble]
  rw [field_high _ _ (by decide), field_high _ _ (by decide), BitVec.extractLsb'_append_eq_right]

theorem encodeDouble_srcCode (o : DoubleOp) : field (encodeDouble o src b dst) 4 2 = codeOfTag src.mode := by
  simp only [field, encodeDouble]
  rw [field_high _ _ (by decide), BitVec.extractLsb'_append_eq_right]

theorem encodeDouble_dstReg (o : DoubleOp) : field (encodeDouble o src b dst) 0 4 = fieldOfReg dst.reg := by
  simp only [field, encodeDouble]
  rw [BitVec.extractLsb'_append_eq_right]

end

/-- The width flag is read back: from bit 6, or under SINGLE_BW_BIT = 5 from the high bit of the mode code (R53). -/
theorem encodeSingle_widthFlag {p : Config.Params} {b : Bool} {dst : OperandRef} (o : SingleOp)
    (h : widthFlagFits p b dst = true) : (encodeSingle p o b dst).getLsbD (singleBwPos p) = b := by
  cases hp : p.singleBwBit with
  | six =>
    have h6 := encodeSingle_bit6 p b dst o
    simp only [← ofBool_getLsbD, singleBit6, hp] at h6
    simpa only [singleBwPos, hp] using BitVec.ofBool_eq_iff_eq.1 h6
  | five =>
    have hb : b = dst.mode.highCode := by simpa [widthFlagFits, hp] using h
    have h5 := getLsbD_field (encodeSingle p o b dst) 4 (n := 2) (k := 1) (by decide)
    rw [encodeSingle_code, ← highCode_eq, ← hb] at h5
    simpa only [singleBwPos, hp] using h5.symm

theorem decode_encodeSingle {p : Config.Params} {b : Bool} {dst : OperandRef} (o : SingleOp)
    (h : singleFits p b dst = true) : decode p (encodeSingle p o b dst) = .ok (mkSingle o b dst) := by
  obtain ⟨ha, hb⟩ := Bool.and_eq_true_iff.1 h
  simp only [decode, classify_encodeSingle, decodeSingle, encodeSingle_opcode, singleOpTable_codeOfSingleOp,
    encodeSingle_widthFlag o hb, encodeSingle_code, encodeSingle_reg, operandOf_codeOfTag ha]

theorem decode_encodeJump {p : Config.Params} {c : Cond} {offset : Word} (hf : offsetFits offset = true)
    (h : c ≠ .notEqual ∨ p.reading ≠ .lsbFirstLiteral) : decode p (encodeJump p c offset) = .ok (mkJump c offset) := by
  simp only [decode, classify_encodeJump p c offset h, decodeJump, encodeJump_condition, condTable_codeOfCond,
    encodeJump_offset, sext10_field hf]

theorem decode_encodeDouble {p : Config.Params} {o : DoubleOp} {src : OperandRef} (b : Bool) {dst : OperandRef}
    (hf : doubleFits src dst = true) (h : (o ≠ .sub ∧ o ≠ .cmp) ∨ p.reading ≠ .msbFirstLiteral) :
    decode p (encodeDouble o src b dst) = .ok (mkDouble o src b dst) := by
  obtain ⟨hs, hd⟩ := Bool.and_eq_true_iff.1 hf
  have hb : (encodeDouble o src b dst).getLsbD 6 = b :=
    BitVec.ofBool_eq_iff_eq.1 ((ofBool_getLsbD _ 6).trans (encodeDouble_bit6 b src dst o))
  simp only [decode, classify_encodeDouble p o src b dst h, decodeDouble, encodeDouble_opcode,
    doubleOpTable_codeOfDoubleOp, encodeDouble_srcReg, encodeDouble_srcCode, operandOf_codeOfTag hs, hb,
    encodeDouble_dstReg, encodeDouble_adBit, operandOf_adBit hd]

/-- The decoder inverts the encoder on every well-formed instruction. -/
theorem decode_encode {p : Config.Params} {i : Instr} (h : i.wellFormed p = true) : decode p (encode p i) = .ok i := by
  rcases i.eq_mk with ⟨o, b, dst, rfl⟩ | ⟨c, offset, rfl⟩ | ⟨o, src, b, dst, rfl⟩
  · rw [wellFormed_mkSingle] at h
    rw [encode_mkSingle, decode_encodeSingle o h]
  · obtain ⟨hf, hc⟩ := (wellFormed_mkJump p c offset).1 h
    rw [encode_mkJump, decode_encodeJump hf hc]
  · obtain ⟨hf, ho⟩ := (wellFormed_mkDouble p o src dst b).1 h
    rw [encode_mkDouble, decode_encodeDouble b hf ho]

/-! ### Encoding a decoded instruction (R73) -/

/-- Under SINGLE_BW_BIT = 5 the width flag is the high bit of the mode code. -/
theorem widthFlag_eq_highCode (w : Word) :
    w.getLsbD 5 = (operandOf (field w 0 4) (field w 4 2)).mode.highCode := by
  rw [operandOf, highCode_modeOf, getLsbD_field w 4 (by decide)]

theorem widthFlagFits_decoded (p : Config.Params) (w : Word) :
    widthFlagFits p (w.getLsbD (singleBwPos p)) (operandOf (field w 0 4) (field w 4 2)) = true := by
  cases hp : p.singleBwBit with
  | six => simp only [widthFlagFits, hp]
  | five => simp only [widthFlagFits, singleBwPos, hp, widthFlag_eq_highCode, beq_self_eq_true]

/-- A Jump word is JNE only where the SingleOperand test does not take the word first (R49). -/
theorem jump_condition_fits {reading : Config.ClassifierReading} {w : Word} (hs : field w 10 6 ≠ singlePattern reading)
    (hj : field w 13 3 = jumpPattern reading) :
    condTable (field w 10 3) ≠ .notEqual ∨ reading ≠ .lsbFirstLiteral := by
  by_contra hn
  obtain ⟨hc, rfl⟩ : condTable (field w 10 3) = .notEqual ∧ reading = .lsbFirstLiteral := by simpa [not_or] using hn
  have hcode : field w 10 3 = 0#3 := by rw [← codeOfCond_condTable (field w 10 3), hc]; rfl
  exact hs (by rw [field_15_10, hj, hcode]; rfl)

/-- A DoubleOperand word has opcode 0x8 or 0x9 only where those words are not Jump (R50). -/
theorem double_opcode_fits {reading : Config.ClassifierReading} {w : Word} {o : DoubleOp}
    (hj : field w 13 3 ≠ jumpPattern reading) (ho : doubleOpTable (field w 12 4) = some o) :
    (o ≠ .sub ∧ o ≠ .cmp) ∨ reading ≠ .msbFirstLiteral := by
  rw [field_15_13_of_15_12, ← codeOfDoubleOp_of_table ho] at hj
  by_cases hr : reading = .msbFirstLiteral
  · subst hr
    left
    constructor <;> rintro rfl <;> exact hj rfl
  · exact .inr hr

/-- A decoded instruction is well-formed. -/
theorem wellFormed_of_decode {p : Config.Params} {w : Word} {i : Instr} (h : decode p w = .ok i) :
    i.wellFormed p = true := by
  rcases decode_ok_cases h with ⟨-, o, -, rfl⟩ | ⟨hs, hj, rfl⟩ | ⟨hj, o, ho, rfl⟩
  · rw [wellFormed_mkSingle, singleFits, inAlphabet_operandOf, widthFlagFits_decoded, Bool.and_self]
  · exact (wellFormed_mkJump p _ _).2 ⟨offsetFits_sext10 _, jump_condition_fits hs hj⟩
  · refine (wellFormed_mkDouble p _ _ _ _).2 ⟨?_, double_opcode_fits hj ho⟩
    rw [doubleFits, inAlphabet_operandOf, operandOf, inOneBitAlphabet_modeOf, Bool.and_self]

/-- The encoder builds a SingleOperand word from the fields it was decoded from, but for bit 6. -/
theorem encodeSingle_decoded {p : Config.Params} {w : Word} {o : SingleOp} (b : Bool)
    (hp : field w 10 6 = singlePattern p.reading) (ho : singleOpTable (field w 7 3) = some o) :
    encodeSingle p o b (operandOf (field w 0 4) (field w 4 2)) =
      field w 10 6 ++ field w 7 3 ++ singleBit6 p b ++ field w 4 2 ++ field w 0 4 := by
  rw [encodeSingle, codeOfSingleOp_of_table ho, ← hp, codeOfTag_operandOf, fieldOfReg_operandOf]

/-- Under SINGLE_BW_BIT = 6 a SingleOperand word is given back whole. -/
theorem encodeSingle_decoded_six {p : Config.Params} {w : Word} {o : SingleOp} (hsix : p.singleBwBit = .six)
    (hp : field w 10 6 = singlePattern p.reading) (ho : singleOpTable (field w 7 3) = some o) :
    encodeSingle p o (w.getLsbD (singleBwPos p)) (operandOf (field w 0 4) (field w 4 2)) = w := by
  have hb : singleBit6 p (w.getLsbD (singleBwPos p)) = field w 6 1 := by
    simp only [singleBit6, singleBwPos, hsix, ofBool_getLsbD]
  rw [encodeSingle_decoded _ hp ho, hb, single_fields]

/-- Whatever SINGLE_BW_BIT is, a SingleOperand word is given back up to bit 6. -/
theorem encodeSingle_decoded_or_bit6 {p : Config.Params} {w : Word} {o : SingleOp} (b : Bool)
    (hp : field w 10 6 = singlePattern p.reading) (ho : singleOpTable (field w 7 3) = some o) :
    encodeSingle p o b (operandOf (field w 0 4) (field w 4 2)) ||| 0x0040 = w ||| 0x0040 := by
  rw [encodeSingle_decoded _ hp ho, or_bit6]
  conv_rhs => rw [← single_fields w, or_bit6]

theorem encodeJump_decoded {p : Config.Params} {w : Word} (hj : field w 13 3 = jumpPattern p.reading) :
    encodeJump p (condTable (field w 10 3)) (sext10 (field w 0 10)) = w := by
  rw [encodeJump, codeOfCond_condTable, field_sext10, ← hj, jump_fields]

theorem encodeDouble_decoded {w : Word} {o : DoubleOp} (ho : doubleOpTable (field w 12 4) = some o) :
    encodeDouble o (operandOf (field w 8 4) (field w 4 2)) (w.getLsbD 6)
      (operandOf (field w 0 4) ((field w 7 1).zeroExtend 2)) = w := by
  have had : adBit (operandOf (field w 0 4) ((field w 7 1).zeroExtend 2)).mode = field w 7 1 := adBit_modeOf _ _
  rw [encodeDouble, codeOfDoubleOp_of_table ho, had, ofBool_getLsbD]
  simp only [codeOfTag_operandOf, fieldOfReg_operandOf]
  exact double_fields w

/-- The encoder gives back the word, where the decoder reads all of it. -/
theorem encode_of_decode {p : Config.Params} {w : Word} {i : Instr} (h : decode p w = .ok i)
    (hall : p.singleBwBit = .six ∨ i.format ≠ .singleOperand) : encode p i = w := by
  rcases decode_ok_cases h with ⟨hp, o, ho, rfl⟩ | ⟨-, hj, rfl⟩ | ⟨-, o, ho, rfl⟩
  · have hsix : p.singleBwBit = .six := hall.resolve_right (fun hf => hf (format_mkSingle _ _ _))
    rw [encode_mkSingle, encodeSingle_decoded_six hsix hp ho]
  · rw [encode_mkJump, encodeJump_decoded hj]
  · rw [encode_mkDouble, encodeDouble_decoded ho]

/-- A SingleOperand instruction is the decoding of a word with its opcode and its operand. -/
theorem decode_single {p : Config.Params} {w : Word} {i : Instr} (h : decode p w = .ok i)
    (hf : i.format = .singleOperand) :
    field w 10 6 = singlePattern p.reading ∧ ∃ o, singleOpTable (field w 7 3) = some o ∧
      i = mkSingle o (w.getLsbD (singleBwPos p)) (operandOf (field w 0 4) (field w 4 2)) := by
  rcases decode_ok_cases h with hs | ⟨-, -, rfl⟩ | ⟨-, o, -, rfl⟩
  · exact hs
  · simp at hf
  · simp at hf

/-- Settles O1: format by format, the fields of an encoded word are the instruction's, and a word is its fields. -/
theorem encodeAndDecodeAreInverse : Obligations.EncodeAndDecodeAreInverse := by
  refine ⟨fun p i => decode_encode, fun p w i h => ⟨wellFormed_of_decode h, encode_of_decode h, ?_⟩⟩
  intro _ hf
  obtain ⟨hp, o, ho, rfl⟩ := decode_single h hf
  rw [encode_mkSingle]
  exact ⟨encodeSingle_decoded_or_bit6 _ hp ho, _, _, operands_mkSingle _ _ _, rfl, widthFlag_eq_highCode w⟩

/-! ### The register number chooses the alphabet (R64) -/

/-- Every operand of a well-formed instruction is in its register's alphabet. -/
theorem operand_inAlphabet {p : Config.Params} {i : Instr} {op : OperandRef} (h : i.wellFormed p = true)
    (hop : op ∈ i.operands) : op.inAlphabet = true := by
  rcases i.eq_mk with ⟨o, b, dst, rfl⟩ | ⟨c, offset, rfl⟩ | ⟨o, src, b, dst, rfl⟩
  · rw [wellFormed_mkSingle] at h
    obtain rfl : op = dst := by simpa using hop
    exact (Bool.and_eq_true_iff.1 h).1
  · simp at hop
  · obtain ⟨hf, -⟩ := (wellFormed_mkDouble p o src dst b).1 h
    obtain ⟨hs, hd⟩ := Bool.and_eq_true_iff.1 hf
    rcases (by simpa using hop : op = src ∨ op = dst) with rfl | rfl
    · exact hs
    · exact inAlphabet_of_inOneBitAlphabet hd

/-- Within a register the tag determines the mode code. -/
theorem modeOf_inj {r : Reg} {c c' : BitVec 2} (h : modeOf r c = modeOf r c') : c = c' := by
  rw [← codeOfTag_modeOf r c, h, codeOfTag_modeOf]

/-- The zero-register alphabet (R63). -/
theorem mode_of_zeroRegister {op : OperandRef} (h : op.inAlphabet = true) (hr : op.reg = 3) :
    op.mode ∈ [ModeTag.const0, .const1, .const2, .constNeg1] := by
  simpa [OperandRef.inAlphabet, hr] using h

/-- The status-register alphabet (R62). -/
theorem mode_of_statusRegister {op : OperandRef} (h : op.inAlphabet = true) (hr : op.reg = 2) :
    op.mode ∈ [ModeTag.direct, .absoluteAddressing, .const4, .const8] := by
  simpa [OperandRef.inAlphabet, hr] using h

/-- Registers other than 2 and 3 have the general alphabet (R61). -/
theorem modeOf_general {r : Reg} (h2 : r ≠ 2) (h3 : r ≠ 3) (c : BitVec 2) : modeOf r c = generalAlphabet c := by
  rw [modeOf, if_neg h2, if_neg h3]

/-- Settles O4: a decoded operand is in its register's alphabet, and `codeOfTag` inverts every alphabet. -/
theorem registerNumberChoosesTheAlphabet : Obligations.RegisterNumberChoosesTheAlphabet := by
  refine ⟨?_, ?_, ?_, by decide⟩
  · intro p w i op h hop
    have ha := operand_inAlphabet (wellFormed_of_decode h) hop
    exact ⟨mode_of_zeroRegister ha, mode_of_statusRegister ha⟩
  · rintro r _ c c' rfl h
    exact modeOf_inj h
  · intro r h2 h3
    rw [modeOf_general h2 h3, modeOf_general h2 h3]
    exact ⟨rfl, rfl⟩

end Sys2Proof
end

section
/-! SUPPORT. The statements of 40_operand_resolver.md about the adder (R83), each form of a source (R84 to R94) and of a
destination (R95 to R100), and a write through a location (R101). -/

namespace Sys2Proof.Machine

/-! ### The effective-address adder (R83) -/

/-- The word sum is the exact signed sum modulo 2^16. -/
theorem toNat_add_eq_signedSum (base disp : Word) :
    ((base + disp).toNat : Int) = ((base.toNat : Int) + disp.toInt) % 65536 := by
  rw [← ofInt_signedSum, BitVec.toNat_ofInt]
  omega

/-- Settles O9: the adder answers the word sum exactly where the exact sum fits, and that is the exact sum modulo 2^16. -/
theorem effectiveAddressIsTheSignedSum : Obligations.EffectiveAddressIsTheSignedSum := by
  intro p base disp
  refine ⟨?_, ?_, ?_⟩
  · intro hp
    exact ⟨_, effectiveAddress_of_fits (.inl hp), toNat_add_eq_signedSum base disp, BitVec.toNat_add base disp⟩
  · intro _ hlo hhi
    refine ⟨_, effectiveAddress_of_fits (.inr ⟨hlo, hhi⟩), ?_⟩
    rw [toNat_add_eq_signedSum]
    exact Int.emod_eq_of_lt hlo (by omega)
  · intro hp hn
    refine effectiveAddress_of_not_fits ?_
    rintro (hw | hs)
    · rw [hp] at hw; cases hw
    · exact hn hs

/-! ### A write through a location (R101) -/

/-- Settles O12, from the laws of the register file and of memory. -/
theorem writeThroughALocation : Obligations.WriteThroughALocation := by
  refine ⟨?_, State.writeReg_zero, ?_, ?_⟩
  · intro s n v hn
    exact ⟨State.readReg_writeReg_same s n v hn, SameRegsExcept.writeReg s n v, State.writeReg_mem s n v⟩
  · intro s a v
    exact ⟨Memory.word_setWord_same s.mem a v, SameMemoryExcept.writeMem s a v, fun r _ => State.readReg_writeMem s r v a⟩
  · intro s loc v
    exact ⟨State.writeLoc_ev s v loc, State.writeLoc_params s v loc⟩

/-! ### Operands that overflow (R83, 20_memory.md R34) -/

/-- An operand with an extension word does not fit where the stream does not. -/
theorem not_operandFits_of_stream {op : OperandRef} {s : State} (hw : op.extWords = 1) (hf : ¬ StreamFits 1 s) :
    ¬ OperandFits op s := by
  rintro ⟨h, -⟩
  exact hf (hw ▸ h)

/-- An Indexed operand does not fit where its sum does not. -/
theorem not_operandFits_of_sum {r : Reg} {s : State} (hs : ¬ SumFits s.params (indexedBase r s) (s.mem.word s.pc)) :
    ¬ OperandFits ⟨r, .indexed⟩ s := by
  rintro ⟨-, h⟩
  exact hs (h rfl)

/-- What an Indexed operand's overflow records where the stream word fits: the exact sum. -/
theorem overflowValue_of_not_sumFits {r : Reg} {s : State} (hf : StreamFits 1 s)
    (hs : ¬ SumFits s.params (indexedBase r s) (s.mem.word s.pc)) :
    overflowValue ⟨r, .indexed⟩ s = ((indexedBase r s).toNat : Int) + (s.mem.word s.pc).toInt :=
  overflowValue_of_stream_fits hf (resolveSource_of_not_fits (not_operandFits_of_sum hs)).1

theorem resolveSource_of_not_streamFits {op : OperandRef} {s : State} (hw : op.extWords = 1) (hf : ¬ StreamFits 1 s) :
    resolveSource op s = .error (.addressOverflow 0xFFFF) := by
  rw [(resolveSource_of_not_fits (not_operandFits_of_stream hw hf)).2, overflowValue_of_not_stream_fits op hf]

theorem resolveDestination_of_not_streamFits {op : OperandRef} {s : State} (hl : LegalDestination op)
    (hw : op.extWords = 1) (hf : ¬ StreamFits 1 s) :
    resolveDestination op s = .error (.addressOverflow 0xFFFF) := by
  rw [(resolveDestination_of_not_fits hl (not_operandFits_of_stream hw hf)).2, overflowValue_of_not_stream_fits op hf]

theorem legalDestination_indexed (r : Reg) : LegalDestination ⟨r, .indexed⟩ := by simp [LegalDestination]
theorem legalDestination_absolute (r : Reg) : LegalDestination ⟨r, .absoluteAddressing⟩ := by simp [LegalDestination]

/-! ### The sources that read memory (R86 to R92) -/

/-- An Indexed address that fits is base plus displacement, one stream word on. -/
theorem resolveIndexed_of_fits {r : Reg} {s : State} (h : OperandFits ⟨r, .indexed⟩ s) :
    resolveIndexed r s = .ok (indexedBase r s + s.mem.word s.pc, s.afterStream) := by
  obtain ⟨hf, hs⟩ := h
  rcases resolveIndexed_cases r s with ⟨-, -, he⟩ | ⟨hn, -, -⟩
  · exact he
  · exact absurd ⟨hf, hs rfl⟩ hn

theorem resolveSource_indexed {r : Reg} {s : State} (h : OperandFits ⟨r, .indexed⟩ s) :
    resolveSource ⟨r, .indexed⟩ s = .ok (s.mem.word (indexedBase r s + s.mem.word s.pc),
      s.afterStream.afterRead (indexedBase r s + s.mem.word s.pc)) := by
  simp only [resolveSource, resolveIndexed_of_fits h, readAt, State.afterStream_mem]

theorem resolveSource_indirect {r : Reg} (s : State) (h0 : r ≠ 0) :
    resolveSource ⟨r, .indirect⟩ s = .ok (s.mem.word (s.readReg r), s.afterRead (s.readReg r)) := by
  simp only [resolveSource, if_neg h0, readAt]

theorem resolveSource_absolute {r : Reg} {s : State} (h : StreamFits 1 s) :
    resolveSource ⟨r, .absoluteAddressing⟩ s =
      .ok (s.mem.word (s.mem.word s.pc), s.afterStream.afterRead (s.mem.word s.pc)) := by
  simp only [resolveSource, streamNext_of_fits h, readAt, State.afterStream_mem]

/-- Both indirect forms on the pc are one `StreamNext()`: the immediate (R89, R91). -/
theorem resolveSource_immediate {m : ModeTag} (s : State) (hm : m = .indirect ∨ m = .indirectIncrement) :
    resolveSource ⟨0, m⟩ s = s.streamNext := by
  rcases hm with rfl | rfl <;> rfl

/-- The immediate is one extension word. -/
theorem extWords_immediate {m : ModeTag} (hm : m = .indirect ∨ m = .indirectIncrement) :
    OperandRef.extWords ⟨0, m⟩ = 1 := by
  rcases hm with rfl | rfl <;> rfl

/-- A stream word and then a data read change the pc and no other register. -/
theorem SameRegsExcept.afterStream_afterRead (s : State) (a : Word) : SameRegsExcept [0] s (s.afterStream.afterRead a) :=
  SameRegsExcept.afterStream s

theorem State.ev_afterStream_afterRead (s : State) (a : Word) :
    (s.afterStream.afterRead a).ev = s.ev ++ [.fetch s.pc, .read a] := by
  simp

/-- Settles O16: one equation where the operand fits, and the overflow's own value where it does not. -/
theorem indexedSourceReadsAtTheSum : Obligations.IndexedSourceReadsAtTheSum := by
  intro r s _ _
  refine ⟨?_, ?_, ?_, ?_⟩
  · rintro h a rfl
    exact ⟨_, resolveSource_indexed h, State.pc_afterStream s, State.ev_afterStream_afterRead s _,
      SameRegsExcept.afterStream_afterRead s _, State.afterStream_mem s, State.afterStream_handoff s⟩
  · intro h
    exact (resolveSource_of_not_fits h).1
  · exact resolveSource_of_not_streamFits rfl
  · intro hf hs
    rw [(resolveSource_of_not_fits (not_operandFits_of_sum hs)).2, overflowValue_of_not_sumFits hf hs]

/-- Settles O17: the two forms read at the register's value and at the extension word. -/
theorem indirectAndAbsoluteSourcesReadMemory : Obligations.IndirectAndAbsoluteSourcesReadMemory := by
  refine ⟨?_, ?_, ?_⟩
  · intro r s h0 _ _
    exact ⟨_, resolveSource_indirect s h0, fun r' _ => State.readReg_afterRead s r' _, State.afterRead_ev s _,
      State.afterRead_mem s _⟩
  · intro s h
    exact ⟨_, resolveSource_absolute h, State.pc_afterStream s, SameRegsExcept.afterStream_afterRead s _,
      State.ev_afterStream_afterRead s _, State.afterStream_mem s⟩
  · intro s
    exact resolveSource_of_not_streamFits rfl

/-- Settles O18: the immediate is one `StreamNext()`, so its context is the one a stream word leaves. -/
theorem pcIndirectIsTheImmediate : Obligations.PcIndirectIsTheImmediate := by
  intro m s hm
  constructor
  · intro h
    exact ⟨_, (resolveSource_immediate s hm).trans (streamNext_of_fits h), State.pc_afterStream s,
      SameRegsExcept.afterStream s, State.afterStream_ev s, State.afterStream_mem s⟩
  · exact resolveSource_of_not_streamFits (extWords_immediate hm)

/-- Settles O19: the read is at the old value, and the step is a word sum, so it wraps under either setting. -/
theorem autoincrementStepsAfterTheRead : Obligations.AutoincrementStepsAfterTheRead := by
  intro r s h0 _ h3
  refine ⟨_, resolveSource_indirectIncrement s rfl h0, ?_, SameRegsExcept.writeReg (s.afterRead _) r _,
    State.writeReg_ev _ _ _, State.writeReg_mem _ _ _⟩
  rw [State.readReg_writeReg_same _ _ _ h3]
  exact BitVec.toNat_add _ _

/-! ### The sources that read no memory (R84, R93, R94) -/

/-- Settles O15, by the resolver's own Direct branch. -/
theorem directSourceReadsItsRegister : Obligations.DirectSourceReadsItsRegister :=
  fun _ _ _ => rfl

/-- Settles O20: the six constants are tags of the resolver's own. -/
theorem constantSourcesChangeNothing : Obligations.ConstantSourcesChangeNothing :=
  fun _ => ⟨rfl, rfl, rfl, rfl, rfl, rfl⟩

/-! ### Destinations (R95 to R98, R100) -/

/-- Settles O21: both destinations are registers, and register 3 takes no write. -/
theorem registerDestinationsChangeNothing : Obligations.RegisterDestinationsChangeNothing :=
  ⟨fun _ _ _ => rfl, fun _ => rfl, State.writeReg_zero⟩

theorem resolveDestination_indexed {r : Reg} {s : State} (h : OperandFits ⟨r, .indexed⟩ s) :
    resolveDestination ⟨r, .indexed⟩ s = .ok (.mem (indexedBase r s + s.mem.word s.pc), s.afterStream) := by
  simp only [resolveDestination, resolveIndexed_of_fits h]

theorem resolveDestination_absolute {r : Reg} {s : State} (h : StreamFits 1 s) :
    resolveDestination ⟨r, .absoluteAddressing⟩ s = .ok (.mem (s.mem.word s.pc), s.afterStream) := by
  simp only [resolveDestination, streamNext_of_fits h]

/-- Settles O22: the address is the source's, and the context is the one a stream word leaves. -/
theorem memoryDestinationsGiveTheAddress : Obligations.MemoryDestinationsGiveTheAddress := by
  refine ⟨?_, ?_, ?_⟩
  · intro r s _ _
    have hl := legalDestination_indexed r
    refine ⟨?_, ?_, ?_, ?_⟩
    · intro h
      exact ⟨_, resolveDestination_indexed h, State.pc_afterStream s, SameRegsExcept.afterStream s,
        State.afterStream_ev s, State.afterStream_mem s⟩
    · intro h
      exact (resolveDestination_of_not_fits hl h).1
    · exact resolveDestination_of_not_streamFits hl rfl
    · intro hf hs
      rw [(resolveDestination_of_not_fits hl (not_operandFits_of_sum hs)).2, overflowValue_of_not_sumFits hf hs]
  · intro s h
    exact ⟨_, resolveDestination_absolute h, State.pc_afterStream s, SameRegsExcept.afterStream s,
      State.afterStream_ev s, State.afterStream_mem s⟩
  · intro s
    exact resolveDestination_of_not_streamFits (legalDestination_absolute 2) rfl

/-- Settles O24: a destination leaves the context as it was, or one stream word on. -/
theorem destinationsMakeNoDataRead : Obligations.DestinationsMakeNoDataRead := by
  intro op s t loc h
  rcases resolveDestination_context h with ⟨rfl, -⟩ | ⟨rfl, -, -⟩
  · exact ⟨rfl, .inl rfl⟩
  · exact ⟨State.afterStream_mem s, .inr (State.afterStream_ev s)⟩

/-! ### The source-only tags (R99) -/

/-- The source-only tags are those no destination may have. -/
theorem sourceOnly_iff_not_legalDestination (op : OperandRef) :
    op.mode ∈ [ModeTag.indirect, .indirectIncrement, .const1, .const2, .const4, .const8, .constNeg1] ↔
      ¬ LegalDestination op := by
  unfold LegalDestination
  cases op.mode <;> decide

/-- The one illegal destination a one-bit mode code can name is {3, Const1} (30_encoding.md R56). -/
theorem eq_const1_of_illegal {op : OperandRef} (ha : op.inOneBitAlphabet = true) (hl : ¬ LegalDestination op) :
    op = ⟨3, .const1⟩ := by
  rcases op with ⟨r, m⟩
  simp only [LegalDestination, List.mem_cons, List.not_mem_nil, or_false, not_or] at hl
  obtain ⟨hdirect, hindexed, habsolute, hconst0⟩ := hl
  by_cases h2 : r = 2
  · simp [OperandRef.inOneBitAlphabet, h2, hdirect, habsolute] at ha
  · by_cases h3 : r = 3
    · simpa [OperandRef.inOneBitAlphabet, h3, hconst0] using ha
    · simp [OperandRef.inOneBitAlphabet, h2, h3, hdirect, hindexed] at ha

/-- The second of two operands of a well-formed instruction is in the one-bit alphabet of its register. -/
theorem destination_inOneBitAlphabet {p : Config.Params} {i : Instr} {src dst : OperandRef}
    (h : i.wellFormed p = true) (hops : i.operands = [src, dst]) : dst.inOneBitAlphabet = true := by
  rcases i.eq_mk with ⟨o, b, dst', rfl⟩ | ⟨c, offset, rfl⟩ | ⟨o, src', b, dst', rfl⟩
  · simp at hops
  · simp at hops
  · obtain ⟨-, rfl⟩ : src' = src ∧ dst' = dst := by simpa using hops
    obtain ⟨hf, -⟩ := (wellFormed_mkDouble p o src' dst' b).1 h
    exact (Bool.and_eq_true_iff.1 hf).2

/-- Every operand in its register's alphabet is the operand of some single-operand word (30_encoding.md R73). -/
theorem exists_word_rrc {op : OperandRef} (h : op.inAlphabet = true) : ∃ w, decode .default w = .ok (.rrc false op) := by
  refine ⟨encode .default (.rrc false op), decode_encode ?_⟩
  simp [Instr.wellFormed, singleFits, widthFlagFits, Config.Params.default, h]

/-- Every source-only tag is in the alphabet of some register (30_encoding.md R61 to R63). -/
theorem sourceOnly_has_register :
    ∀ m ∈ [ModeTag.indirect, .indirectIncrement, .const1, .const2, .const4, .const8, .constNeg1],
      ∃ r : Reg, OperandRef.inAlphabet ⟨r, m⟩ = true := by
  decide

/-- Settles O23: the tag alone is refused; a decoded instruction is well-formed, which leaves a double-operand destination one
source-only tag, and a single-operand word exists for every tag of an alphabet. -/
theorem sourceOnlyTagsAreNoDestination : Obligations.SourceOnlyTagsAreNoDestination := by
  refine ⟨?_, ?_, by decide, ?_⟩
  · intro r m s hm
    exact resolveDestination_of_illegal s ((sourceOnly_iff_not_legalDestination ⟨r, m⟩).1 hm)
  · intro p w i src r m h hops hm
    have ha := destination_inOneBitAlphabet (wellFormed_of_decode h) hops
    have hc := eq_const1_of_illegal ha ((sourceOnly_iff_not_legalDestination ⟨r, m⟩).1 hm)
    simpa using hc
  · intro m hm
    obtain ⟨r, hr⟩ := sourceOnly_has_register m hm
    obtain ⟨w, hw⟩ := exists_word_rrc hr
    exact ⟨w, r, hw⟩

end Sys2Proof.Machine
end

section
/-! SUPPORT. The statements of 42_jump.md about the condition evaluator (R118, R119) and a step on a Jump word (R120). -/

namespace Sys2Proof.Machine

/-! ### The condition evaluator (R118, R119) -/

/-- A bit that the mask lets through is the same in two words that agree under the mask. -/
theorem getLsbD_eq_of_masked_eq {s s' m : Word} (h : s &&& m = s' &&& m) {k : Nat} (hk : m.getLsbD k = true) :
    s.getLsbD k = s'.getLsbD k := by
  have hbit := congrArg (BitVec.getLsbD · k) h
  simpa only [BitVec.getLsbD_and, hk, Bool.and_true] using hbit

/-- A condition is a function of C, Z, N and V alone. -/
theorem evaluateCondition_congr {s s' : Word} (c : Cond) (hC : flagC s = flagC s') (hZ : flagZ s = flagZ s')
    (hN : flagN s = flagN s') (hV : flagV s = flagV s') : evaluateCondition c s = evaluateCondition c s' := by
  cases c <;> simp only [evaluateCondition, hC, hZ, hN, hV]

/-- The mask 0x0107 lets through the four flags a condition reads. -/
theorem evaluateCondition_of_masked_eq {s s' : Word} (c : Cond) (h : s &&& 0x0107 = s' &&& 0x0107) :
    evaluateCondition c s = evaluateCondition c s' :=
  evaluateCondition_congr c (getLsbD_eq_of_masked_eq h (by decide)) (getLsbD_eq_of_masked_eq h (by decide))
    (getLsbD_eq_of_masked_eq h (by decide)) (getLsbD_eq_of_masked_eq h (by decide))

/-- Settles O28: the code and the flag of each row of R118's table, and the four flags are all a condition reads. -/
theorem conditionsReadFourFlags : Obligations.ConditionsReadFourFlags := by
  refine ⟨by decide, ?_, fun c _ _ => evaluateCondition_of_masked_eq c⟩
  intro s
  have notEqual : evaluateCondition .notEqual s = true ↔ flagZ s = false := iff_of_eq (Bool.not_eq_true' _)
  have lower : evaluateCondition .lower s = true ↔ flagC s = false := iff_of_eq (Bool.not_eq_true' _)
  have greaterOrEqual : evaluateCondition .greaterOrEqual s = true ↔ flagV s = flagN s := beq_iff_eq
  have lessThan : evaluateCondition .lessThan s = true ↔ flagV s ≠ flagN s := bne_iff_ne
  exact ⟨notEqual, .rfl, lower, .rfl, .rfl, greaterOrEqual, lessThan, rfl⟩

/-- Settles O29: in each pair one condition is the other's flag test negated. -/
theorem conditionsComeInComplements : Obligations.ConditionsComeInComplements := by
  intro s
  have greaterOrEqual : evaluateCondition .greaterOrEqual s = !evaluateCondition .lessThan s := (Bool.not_not _).symm
  have equal : evaluateCondition .equal s = !evaluateCondition .notEqual s := (Bool.not_not _).symm
  have carrySet : evaluateCondition .carrySet s = !evaluateCondition .lower s := (Bool.not_not _).symm
  exact ⟨greaterOrEqual, equal, carrySet⟩

/-! ### What a jump does in each of its three cases (R120) -/

section
variable {c : Cond} {offset : Word} {s : State}

theorem runJump_of_untaken (h : evaluateCondition c s.status = false) : runJump c offset s = .next s := by
  simp only [runJump, h]

theorem runJump_of_fits (h : evaluateCondition c s.status = true) (hf : SumFits s.params s.pc offset) :
    runJump c offset s = .next (s.setPc (s.pc + offset)) := by
  simp only [runJump, h, effectiveAddress_of_fits hf]

theorem runJump_of_not_fits (h : evaluateCondition c s.status = true) (hf : ¬ SumFits s.params s.pc offset) :
    runJump c offset s = .fault (.raised (.addressOverflow ((s.pc.toNat : Int) + offset.toInt)) s) := by
  simp only [runJump, h, effectiveAddress_of_not_fits hf, State.raise]

/-- A taken jump that goes on leaves the pc at pc plus offset. -/
theorem pc_of_runJump_taken {t : State} (h : evaluateCondition c s.status = true) (ht : runJump c offset s = .next t) :
    t.pc = s.pc + offset := by
  by_cases hf : SumFits s.params s.pc offset
  · rw [runJump_of_fits h hf] at ht
    cases ht
    exact State.setPc_pc s _
  · rw [runJump_of_not_fits h hf] at ht
    cases ht

end

/-! ### A step on a Jump word (R120) -/

/-- A Jump word decodes under every setting, to the condition and the offset of its fields (R121). -/
theorem decode_of_classify_jump {p : Config.Params} {w : Word} (h : classify p.reading w = .jump) :
    decode p w = .ok (mkJump (condTable (field w 10 3)) (sext10 (field w 0 10))) := by
  simp only [decode, h, decodeJump]

/-- Where the stream fits, a step on a word that decodes is its instruction in ctx0 (70_reset_and_hazards.md R170). -/
theorem step_of_decode {s : State} {i : Instr} (hf : StreamFits 1 s) (hi : decode s.params (s.mem.word s.pc) = .ok i) :
    step s = exec i s.clearHandoff.afterStream := by
  simp only [step, fetchInstruction_of_fits hf, State.afterStream_params, State.clearHandoff_params, hi]

/-- A step on a Jump word is that jump in ctx0. -/
theorem step_jumpWord {s : State} (hc : classify s.params.reading (s.mem.word s.pc) = .jump) (hf : StreamFits 1 s) :
    step s = runJump (condTable (field (s.mem.word s.pc) 10 3)) (sext10 (field (s.mem.word s.pc) 0 10))
      s.clearHandoff.afterStream := by
  rw [← exec_mkJump]
  exact step_of_decode hf (decode_of_classify_jump hc)

/-- ctx0 reads every register but the pc as the state before the fetch does. -/
theorem SameRegsExcept.ctx0 (s : State) : SameRegsExcept [0] s s.clearHandoff.afterStream :=
  SameRegsExcept.afterStream s.clearHandoff

/-- The status word of ctx0 is the one before the fetch (R131). -/
theorem ctx0_status (s : State) : s.clearHandoff.afterStream.status = s.status :=
  SameRegsExcept.ctx0 s 2 (by decide)

/-- A write to the pc after ctx0 leaves the other registers as before the fetch. -/
theorem SameRegsExcept.ctx0_setPc (s : State) (v : Word) : SameRegsExcept [0] s (s.clearHandoff.afterStream.setPc v) :=
  ((SameRegsExcept.ctx0 s).trans (SameRegsExcept.writeReg _ 0 v)).mono (by simp)

/-- Settles O31: the step is the jump in ctx0, whose pc is A + 1; the word 0x3FFF is JMP with offset -1. -/
theorem jumpWordsTargetNextPlusOffset : Obligations.JumpWordsTargetNextPlusOffset := by
  intro s w hw hc hf
  subst hw
  have hstep := step_jumpWord hc hf
  have hstatus := ctx0_status s
  have hpc : s.clearHandoff.afterStream.pc = s.pc + 1 := State.pc_afterStream s.clearHandoff
  have hparams : s.clearHandoff.afterStream.params = s.params := State.afterStream_params s.clearHandoff
  rw [hstep]
  refine ⟨?untaken, ?taken, ?overflow, ?self⟩
  case untaken =>
    intro hcond
    rw [← hstatus] at hcond
    exact ⟨_, runJump_of_untaken hcond, hpc, SameRegsExcept.ctx0 s⟩
  case taken =>
    intro hcond hsum
    rw [← hstatus] at hcond
    rw [← hpc, ← hparams] at hsum
    exact ⟨_, runJump_of_fits hcond hsum, by rw [State.setPc_pc, hpc]; rfl, SameRegsExcept.ctx0_setPc s _⟩
  case overflow =>
    intro hcond hsum
    rw [← hstatus] at hcond
    rw [← hpc, ← hparams] at hsum
    rw [← hpc]
    exact ⟨_, runJump_of_not_fits hcond hsum⟩
  case self =>
    intro hself t ht
    rw [hself] at ht
    have htarget := pc_of_runJump_taken rfl ht
    rw [htarget, hpc, BitVec.add_assoc]
    exact BitVec.add_zero _

end Sys2Proof.Machine
end

section
/-! SUPPORT. The statements of 60_exceptions.md about the words that raise UnknownOpcode (R150) and the operands that raise
InvalidDestinationMode (R153). -/

namespace Sys2Proof

/-! ### The words the decoder refuses (R150) -/

/-- The one single-operand code without an entry is 111 (30_encoding.md R66). -/
theorem singleOpTable_eq_none_iff (c : BitVec 3) : singleOpTable c = none ↔ c.toNat = 7 := by revert c; decide

/-- The double-operand codes without an entry are 0x0 to 0x3 (30_encoding.md R67). -/
theorem doubleOpTable_eq_none_iff (c : BitVec 4) : doubleOpTable c = none ↔ c.toNat < 4 := by revert c; decide

theorem decodeSingle_error_iff {p : Config.Params} {w : Word} {u : UnknownOpcode} :
    decodeSingle p w = .error u ↔
      singleOpTable (field w 7 3) = none ∧ u = ⟨.singleOperand, (field w 7 3).toNat, w⟩ := by
  unfold decodeSingle
  cases singleOpTable (field w 7 3) <;> simp [eq_comm]

theorem decodeDouble_error_iff {w : Word} {u : UnknownOpcode} :
    decodeDouble w = .error u ↔
      doubleOpTable (field w 12 4) = none ∧ u = ⟨.doubleOperand, (field w 12 4).toNat, w⟩ := by
  unfold decodeDouble
  cases doubleOpTable (field w 12 4) <;> simp [eq_comm]

/-- Everything `decode` refuses: by its format's table, and never a Jump word. -/
theorem decode_error_iff {p : Config.Params} {w : Word} {u : UnknownOpcode} :
    decode p w = .error u ↔
      (classify p.reading w = .singleOperand ∧ singleOpTable (field w 7 3) = none ∧
        u = ⟨.singleOperand, (field w 7 3).toNat, w⟩) ∨
      (classify p.reading w = .doubleOperand ∧ doubleOpTable (field w 12 4) = none ∧
        u = ⟨.doubleOperand, (field w 12 4).toNat, w⟩) := by
  unfold decode
  cases classify p.reading w
  case singleOperand => simp [decodeSingle_error_iff]
  case jump => simp
  case doubleOperand => simp [decodeDouble_error_iff]

/-- A field as a number. -/
theorem toNat_field (w : Word) (lo n : Nat) : (field w lo n).toNat = w.toNat / 2 ^ lo % 2 ^ n := by
  rw [field, BitVec.extractLsb'_toNat, Nat.shiftRight_eq_div_pow]

/-- The single-operand opcode field as a number. -/
theorem toNat_singleOpcode (w : Word) : (field w 7 3).toNat = w.toNat / 128 % 8 := toNat_field w 7 3

/-- The double-operand opcode field as a number: it is the top of the word. -/
theorem toNat_doubleOpcode (w : Word) : (field w 12 4).toNat = w.toNat / 4096 := by
  have hw := w.isLt
  rw [toNat_field]
  omega

/-- The SingleOperand pattern by the word's value. -/
theorem singlePattern_iff (reading : Config.ClassifierReading) (w : Word) :
    field w 10 6 = singlePattern reading ↔ w.toNat / 1024 = (singlePattern reading).toNat := by
  have hw := w.isLt
  rw [← BitVec.toNat_inj, toNat_field]
  omega

/-- The Jump pattern by the word's value. -/
theorem jumpPattern_iff (reading : Config.ClassifierReading) (w : Word) :
    field w 13 3 = jumpPattern reading ↔ w.toNat / 8192 = (jumpPattern reading).toNat := by
  have hw := w.isLt
  rw [← BitVec.toNat_inj, toNat_field]
  omega

/-- A SingleOperand word by its value (30_encoding.md R49). -/
theorem classify_eq_single_iff (reading : Config.ClassifierReading) (w : Word) :
    classify reading w = .singleOperand ↔ w.toNat / 1024 = (singlePattern reading).toNat := by
  rw [← singlePattern_iff, classify_by_fields]
  split_ifs with hs hj <;> simp [hs]

/-- A DoubleOperand word by its value: neither other format's pattern stands in it (30_encoding.md R49). -/
theorem classify_eq_double_iff (reading : Config.ClassifierReading) (w : Word) :
    classify reading w = .doubleOperand ↔
      w.toNat / 1024 ≠ (singlePattern reading).toNat ∧ w.toNat / 8192 ≠ (jumpPattern reading).toNat := by
  rw [Ne, Ne, ← singlePattern_iff, ← jumpPattern_iff, classify_by_fields]
  split_ifs with hs hj <;> simp [*]

/-- A word that decodes to nothing, by its value: a SingleOperand word with code 111, or a DoubleOperand word with one of the codes
0x0 to 0x3. -/
theorem decode_fails_iff (p : Config.Params) (w : Word) :
    (∃ u, decode p w = .error u) ↔
      (w.toNat / 1024 = (singlePattern p.reading).toNat ∧ w.toNat / 128 % 8 = 7) ∨
      (w.toNat / 1024 ≠ (singlePattern p.reading).toNat ∧ w.toNat / 8192 ≠ (jumpPattern p.reading).toNat ∧
        w.toNat / 4096 < 4) := by
  simp only [decode_error_iff, classify_eq_single_iff, classify_eq_double_iff, singleOpTable_eq_none_iff,
    doubleOpTable_eq_none_iff, toNat_singleOpcode, toNat_doubleOpcode, exists_or, exists_and_left, exists_eq, and_true,
    and_assoc]

/-- What a refused word records. -/
theorem decode_error_records {p : Config.Params} {w : Word} {u : UnknownOpcode} (h : decode p w = .error u) :
    u.format = classify p.reading w ∧ u.format ≠ .jump ∧ u.word = w ∧
      (u.format = .singleOperand → u.code = w.toNat / 128 % 8) ∧ (u.format = .doubleOperand → u.code = w.toNat / 4096) := by
  rcases decode_error_iff.1 h with ⟨hc, -, rfl⟩ | ⟨hc, -, rfl⟩
  · simp [hc, toNat_singleOpcode]
  · simp [hc, toNat_doubleOpcode]

end Sys2Proof

namespace Sys2Proof.Machine

/-! ### What a resolver that fails records -/

/-- A source fails by an address overflow only. -/
theorem resolveSource_error {op : OperandRef} {s : State} {e : FaultInfo} (h : resolveSource op s = .error e) :
    e = .addressOverflow (overflowValue op s) := by
  by_cases hf : OperandFits op s
  · obtain ⟨v, t, he⟩ := resolveSource_of_fits hf
    rw [he] at h; cases h
  · rw [(resolveSource_of_not_fits hf).2] at h
    exact (Except.error.inj h).symm

/-- A destination fails by an address overflow, or by its tag. -/
theorem resolveDestination_error {op : OperandRef} {s : State} {e : FaultInfo} (h : resolveDestination op s = .error e) :
    e = .addressOverflow (overflowValue op s) ∨ (¬ LegalDestination op ∧ e = .invalidDestinationMode op.reg op.mode) := by
  by_cases hl : LegalDestination op
  · by_cases hf : OperandFits op s
    · obtain ⟨loc, t, he⟩ := resolveDestination_of_fits hl hf
      rw [he] at h; cases h
    · rw [(resolveDestination_of_not_fits hl hf).2] at h
      exact .inl (Except.error.inj h).symm
  · rw [resolveDestination_of_illegal s hl] at h
    exact .inr ⟨hl, (Except.error.inj h).symm⟩

/-! ### What an instruction that fails records -/

@[simp] theorem destinationOperand_mkJump (c : Cond) (offset : Word) : destinationOperand (mkJump c offset) = none := by
  cases c <;> rfl

@[simp] theorem destinationOperand_mkDouble (o : DoubleOp) (src : OperandRef) (b : Bool) (dst : OperandRef) :
    destinationOperand (mkDouble o src b dst) = some dst := by cases o <;> rfl

/-- A jump fails by an address overflow only. -/
theorem runJump_fault {c : Cond} {offset : Word} {s t : State} {info : FaultInfo}
    (h : runJump c offset s = .fault (.raised info t)) : ∃ a, info = .addressOverflow a := by
  rcases runJump_cases c offset s with ⟨-, he⟩ | ⟨-, -, he⟩ | ⟨-, -, -, he⟩ <;> rw [he] at h <;> cases h
  exact ⟨_, rfl⟩

/-- A destination-role opcode fails with what its destination does. -/
theorem runDestination_fault {o : SingleOp} {b : Bool} {dst : OperandRef} {s t : State} {info : FaultInfo}
    (h : runDestination o b dst s = .fault (.raised info t)) : resolveDestination dst s = .error info := by
  rcases runDestination_cases o b dst s with ⟨loc, s1, -, he⟩ | ⟨e, hd, he⟩ <;> rw [he] at h <;> cases h
  exact hd

/-- PUSH fails with what its source does. -/
theorem execPush_fault {b : Bool} {dst : OperandRef} {s t : State} {info : FaultInfo}
    (h : execPush b dst s = .fault (.raised info t)) : resolveSource dst s = .error info := by
  rcases execPush_cases b dst s with ⟨v, s1, -, he⟩ | ⟨e, hs, he⟩ <;> rw [he] at h <;> cases h
  exact hs

/-- CALL fails with what its source does. -/
theorem execCall_fault {b : Bool} {dst : OperandRef} {s t : State} {info : FaultInfo}
    (h : execCall b dst s = .fault (.raised info t)) : resolveSource dst s = .error info := by
  rcases execCall_cases b dst s with ⟨v, s1, -, he⟩ | ⟨e, hs, he⟩ <;> rw [he] at h <;> cases h
  exact hs

/-- A double-operand instruction fails with what its pair of operands does, and goes on where the pair resolves. -/
theorem exec_mkDouble (o : DoubleOp) (src : OperandRef) (b : Bool) (dst : OperandRef) (s : State) :
    (∀ e, resolveDouble src dst s = .error e → exec (mkDouble o src b dst) s = .fault (.raised e s)) ∧
    (∀ v loc s2, resolveDouble src dst s = .ok ((v, loc), s2) → ∃ t, exec (mkDouble o src b dst) s = .next t) := by
  obtain ⟨src', dst', o', b', layer, hi, hex, -⟩ := exec_double (format_mkDouble o src dst b)
  obtain ⟨rfl, rfl⟩ : src = src' ∧ dst = dst' := by simpa using congrArg Instr.operands hi
  obtain ⟨hfail, hnext⟩ := hex s
  exact ⟨hfail, fun v loc s2 hr => ⟨_, hnext v loc s2 hr⟩⟩

/-- A double-operand instruction that fails does so with what its source or its destination does. -/
theorem exec_mkDouble_fault {o : DoubleOp} {src : OperandRef} {b : Bool} {dst : OperandRef} {s t : State} {info : FaultInfo}
    (h : exec (mkDouble o src b dst) s = .fault (.raised info t)) :
    resolveSource src s = .error info ∨ ∃ s1, resolveDestination dst s1 = .error info := by
  obtain ⟨hfail, hnext⟩ := exec_mkDouble o src b dst s
  rcases resolveDouble_cases src dst s with ⟨v, loc, s1, s2, -, -, hr⟩ | ⟨e, he, hr⟩
  · obtain ⟨t', ht⟩ := hnext v loc s2 hr
    rw [ht] at h; cases h
  · rw [hfail e hr] at h; cases h
    exact he.imp_right fun ⟨_, s1, _, hd⟩ => ⟨s1, hd⟩

/-- Everything `exec` can fail with: an address overflow, or what the resolver answers for the instruction's destination. -/
theorem exec_fault {i : Instr} {s t : State} {info : FaultInfo} (h : exec i s = .fault (.raised info t)) :
    (∃ a, info = .addressOverflow a) ∨
    ∃ op s1, destinationOperand i = some op ∧ resolveDestination op s1 = .error info := by
  have source {op : OperandRef} (hs : resolveSource op s = .error info) : ∃ a, info = .addressOverflow a :=
    ⟨_, resolveSource_error hs⟩
  rcases i.eq_mk with ⟨o, b, dst, rfl⟩ | ⟨c, offset, rfl⟩ | ⟨o, src, b, dst, rfl⟩
  · cases o with
    | rrc => exact .inr ⟨dst, s, rfl, runDestination_fault h⟩
    | swpb => exact .inr ⟨dst, s, rfl, runDestination_fault h⟩
    | rra => exact .inr ⟨dst, s, rfl, runDestination_fault h⟩
    | sxt => exact .inr ⟨dst, s, rfl, runDestination_fault h⟩
    | push => exact .inl (source (execPush_fault h))
    | call => exact .inl (source (execCall_fault h))
    | reti => cases h
  · rw [exec_mkJump] at h
    exact .inl (runJump_fault h)
  · rcases exec_mkDouble_fault h with hs | ⟨s1, hd⟩
    · exact .inl (source hs)
    · exact .inr ⟨dst, s1, destinationOperand_mkDouble o src b dst, hd⟩

/-! ### A step on a word that does not decode (R150) -/

/-- A fetch that answers gives the word at the pc and leaves ctx0. -/
theorem State.fetchInstruction_ok {s ctx0 : State} {w : Word} (h : s.fetchInstruction = .ok (w, ctx0)) :
    w = s.mem.word s.pc ∧ ctx0 = s.clearHandoff.afterStream := State.streamNext_ok h

/-- A step whose word does not decode fails with ctx0. -/
theorem step_of_decode_error {s ctx0 : State} {w : Word} {u : UnknownOpcode} (hf : s.fetchInstruction = .ok (w, ctx0))
    (hd : decode s.params w = .error u) : step s = .fault (.raised (unknownOpcodeFault u) ctx0) := by
  obtain ⟨-, hc⟩ := State.fetchInstruction_ok hf
  have hp : ctx0.params = s.params := by rw [hc, State.afterStream_params, State.clearHandoff_params]
  simp only [step, hf, hp, hd, State.raise]

/-- `exec` never raises UnknownOpcode: neither the adder nor the resolver does. -/
theorem exec_ne_unknownOpcode (i : Instr) (s c : State) (f : Format) (code : Nat) (w : Word) :
    exec i s ≠ .fault (.raised (.unknownOpcode f code w) c) := by
  intro h
  rcases exec_fault h with ⟨a, ha⟩ | ⟨op, s1, -, hd⟩
  · cases ha
  · rcases resolveDestination_error hd with ha | ⟨-, hm⟩
    · cases ha
    · cases hm

/-- A step that raises UnknownOpcode has a word at its pc that the decoder refuses with that record. -/
theorem decode_of_step_unknownOpcode {s c : State} {f : Format} {code : Nat} {w : Word}
    (h : step s = .fault (.raised (.unknownOpcode f code w) c)) :
    s.mem.word s.pc = w ∧ decode s.params w = .error ⟨f, code, w⟩ := by
  rcases step_cases s with ⟨-, -, -, he⟩ | ⟨-, u, hd, he⟩ | ⟨-, i, -, he⟩
  · rw [he] at h; cases h
  · rw [he] at h
    obtain ⟨-, -, hword, -, -⟩ := decode_error_records hd
    cases h
    rw [← hword] at hd
    exact ⟨hword.symm, hd⟩
  · rw [he] at h
    exact absurd h (exec_ne_unknownOpcode i _ c f code w)

/-- Settles O3: the decoder refuses by the two opcode tables alone, and no other part of a step raises UnknownOpcode. -/
theorem unknownOpcodeWordsAreTheTabledOnes : Obligations.UnknownOpcodeWordsAreTheTabledOnes := by
  refine ⟨?words, fun p w u => decode_error_records, ?step, fun s c f code w => decode_of_step_unknownOpcode,
    exec_ne_unknownOpcode⟩
  case words =>
    intro p w
    rw [decode_fails_iff]
    cases p.reading <;> simp only [singlePattern, jumpPattern, BitVec.reduceToNat] <;> omega
  case step =>
    intro s ctx0 w u hf hd
    obtain ⟨-, -, hword, -, -⟩ := decode_error_records hd
    rw [step_of_decode_error hf hd, unknownOpcodeFault, hword]

/-! ### The operands that raise InvalidDestinationMode (R153) -/

/-- An instruction that raises InvalidDestinationMode resolves the recorded operand as a destination, and its tag is source-only. -/
theorem exec_invalidDestination {i : Instr} {s c : State} {r : Reg} {m : ModeTag}
    (h : exec i s = .fault (.raised (.invalidDestinationMode r m) c)) :
    destinationOperand i = some ⟨r, m⟩ ∧ ¬ LegalDestination ⟨r, m⟩ := by
  rcases exec_fault h with ⟨a, ha⟩ | ⟨op, s1, hop, hd⟩
  · cases ha
  · rcases resolveDestination_error hd with ha | ⟨hl, hm⟩
    · cases ha
    · cases hm
      exact ⟨hop, hl⟩

/-- RRC, SWPB, RRA and SXT at an illegal tag fail, whatever the context. -/
theorem runDestination_of_illegal {dst : OperandRef} (o : SingleOp) (b : Bool) (s : State) (hl : ¬ LegalDestination dst) :
    runDestination o b dst s = .fault (.raised (.invalidDestinationMode dst.reg dst.mode) s) := by
  simp only [runDestination, resolveDestination_of_illegal s hl, State.raise]

/-- Once the source has resolved, an illegal destination is refused. -/
theorem resolveDouble_of_illegal {src dst : OperandRef} {s : State} (hs : OperandFits src s) (hl : ¬ LegalDestination dst) :
    resolveDouble src dst s = .error (.invalidDestinationMode dst.reg dst.mode) := by
  obtain ⟨v, s1, he⟩ := resolveSource_of_fits hs
  simp only [resolveDouble, he, resolveDestination_of_illegal s1 hl]

/-- A single-operand instruction that resolves a destination is one of four. -/
theorem mem_of_destinationOperand_mkSingle {o : SingleOp} {b : Bool} {dst op : OperandRef}
    (h : destinationOperand (mkSingle o b dst) = some op) :
    mkSingle o b dst ∈ [Instr.rrc b op, .swpb b op, .rra b op, .sxt b op] := by
  cases o <;> cases h <;> simp [mkSingle]

/-- Settles O50: the failing operand is the one resolved as a destination, which a well-formed double-operand instruction can
give one illegal tag only. -/
theorem invalidDestinationArisesInTwoFamilies : Obligations.InvalidDestinationArisesInTwoFamilies := by
  refine ⟨?families, ?double, ?single, ?never⟩
  case families =>
    intro p i s c r m hwf h
    obtain ⟨hop, hl⟩ := exec_invalidDestination h
    rcases i.eq_mk with ⟨o, b, dst, rfl⟩ | ⟨cond, offset, rfl⟩ | ⟨o, src, b, dst, rfl⟩
    · exact .inr ⟨b, mem_of_destinationOperand_mkSingle hop, (sourceOnly_iff_not_legalDestination ⟨r, m⟩).2 hl⟩
    · simp at hop
    · obtain rfl : dst = ⟨r, m⟩ := by simpa using hop
      have hops := operands_mkDouble o src ⟨r, m⟩ b
      obtain ⟨rfl, rfl⟩ : r = 3 ∧ m = .const1 := by
        simpa using eq_const1_of_illegal (destination_inOneBitAlphabet hwf hops) hl
      exact .inl ⟨format_mkDouble .., rfl, rfl, src, hops⟩
  case double =>
    intro o src b s hs
    have hl : ¬ LegalDestination ⟨3, .const1⟩ := by simp [LegalDestination]
    exact (exec_mkDouble o src b ⟨3, .const1⟩ s).1 _ (resolveDouble_of_illegal hs hl)
  case single =>
    intro b r m i s hi hm
    have hl := (sourceOnly_iff_not_legalDestination ⟨r, m⟩).1 hm
    simp only [List.mem_cons, List.not_mem_nil, or_false] at hi
    rcases hi with rfl | rfl | rfl | rfl
    · exact runDestination_of_illegal .rrc b s hl
    · exact runDestination_of_illegal .swpb b s hl
    · exact runDestination_of_illegal .rra b s hl
    · exact runDestination_of_illegal .sxt b s hl
  case never =>
    intro op s r m b c cond offset
    have never {i : Instr} (hi : destinationOperand i = none) : exec i s ≠ .fault (.raised (.invalidDestinationMode r m) c) := by
      intro h
      obtain ⟨hop, -⟩ := exec_invalidDestination h
      rw [hi] at hop; cases hop
    exact ⟨never rfl, never rfl, never rfl, never (destinationOperand_mkJump cond offset)⟩

end Sys2Proof.Machine
end

section
/-! SUPPORT. What every step keeps (10_state.md section 2, 20_memory.md section 1), what a step that fails leaves
(60_exceptions.md), and the instruction-word fetch (70_reset_and_hazards.md R170). -/

namespace Sys2Proof.Machine

/-! ### The invariant (10_state.md R15; log entries 2 and 3) -/

@[simp] theorem layerPush_params (s : State) : (layerPush s).params = s.params := by simp [layerPush]
@[simp] theorem layerCall_params (s : State) : (layerCall s).params = s.params := by simp [layerCall]
@[simp] theorem layerReti_params (s : State) : (layerReti s).params = s.params := by simp [layerReti]

theorem State.Inv.handOver {s : State} (h : s.Inv) (ho : Handoff) : (s.handOver ho).Inv := h.of_eq rfl rfl

theorem State.Inv.setPc {s : State} (h : s.Inv) (v : Word) : (s.setPc v).Inv :=
  h.of_eq (State.setPc_mem s v) (State.setPc_zeroCell s v)

theorem State.Inv.layerPush {s : State} (h : s.Inv) : (layerPush s).Inv := h.layerStack.layerFlags

theorem State.Inv.layerCall {s : State} (h : s.Inv) : (layerCall s).Inv := h.layerStack.layerPc.layerFlags

theorem State.Inv.layerReti {s : State} (h : s.Inv) : (layerReti s).Inv := h.layerPop.layerRetiPc.layerFlags

theorem State.Inv.of_resolveSource {op : OperandRef} {s : State} {v : Word} {t : State} (h : s.Inv)
    (hr : resolveSource op s = .ok (v, t)) : t.Inv := by
  obtain ⟨-, hm, -, -, hz⟩ := resolveSource_keeps hr
  exact h.of_eq hm hz

theorem State.Inv.of_resolveDestination {op : OperandRef} {s : State} {loc : Location} {t : State} (h : s.Inv)
    (hr : resolveDestination op s = .ok (loc, t)) : t.Inv := by
  obtain ⟨-, hm, -, -, hz⟩ := resolveDestination_keeps hr
  exact h.of_eq hm hz

/-- ctx0 meets the invariant where the state before the fetch does. -/
theorem State.Inv.ctx0 {s : State} (h : s.Inv) : s.clearHandoff.afterStream.Inv :=
  h.of_eq (State.afterStream_mem s.clearHandoff) (ctx0_zeroCell s)

theorem ctx0_params (s : State) : s.clearHandoff.afterStream.params = s.params := State.afterStream_params s.clearHandoff

/-- Every instruction that goes on keeps the invariant: the resolver writes neither memory nor the zero register's cell, and the
layer writes whole words. -/
theorem exec_keeps_inv {i : Instr} {s t : State} (hi : s.Inv) (h : exec i s = .next t) : t.Inv := by
  rcases exec_next h with
    ⟨-, rfl | ⟨target, rfl⟩⟩ | ⟨b, dst, -, rfl⟩ | ⟨op, v, s1, ho, -, hsrc, ht⟩ | ⟨op, loc, s1, ho, -, hdst, rfl⟩ |
    ⟨src, dst, v, loc, s1, s2, ho, -, hsrc, hdst, ht⟩
  · exact hi
  · exact hi.setPc target
  · exact (hi.handOver _).layerReti
  · have h1 := (hi.of_resolveSource hsrc).handOver ho
    rcases ht with rfl | rfl
    · exact h1.layerPush
    · exact h1.layerCall
  · exact ((hi.of_resolveDestination hdst).handOver ho).layerResult loc
  · have h2 := ((hi.of_resolveSource hsrc).of_resolveDestination hdst).handOver ho
    rcases ht with rfl | rfl | rfl
    · exact h2.layerResult loc
    · exact h2.layerFlags
    · exact h2.writeLoc loc v

/-- No instruction changes the parameters (log entry 3). -/
theorem exec_keeps_params {i : Instr} {s t : State} (h : exec i s = .next t) : t.params = s.params := by
  rcases exec_next h with
    ⟨-, rfl | ⟨target, rfl⟩⟩ | ⟨b, dst, -, rfl⟩ | ⟨op, v, s1, ho, -, hsrc, ht⟩ | ⟨op, loc, s1, ho, -, hdst, rfl⟩ |
    ⟨src, dst, v, loc, s1, s2, ho, -, hsrc, hdst, ht⟩
  · rfl
  · exact State.setPc_params s target
  · exact layerReti_params _
  · obtain ⟨hp, -⟩ := resolveSource_keeps hsrc
    rcases ht with rfl | rfl <;> simp [hp]
  · obtain ⟨hp, -⟩ := resolveDestination_keeps hdst
    simp [hp]
  · obtain ⟨hp1, -⟩ := resolveSource_keeps hsrc
    obtain ⟨hp2, -⟩ := resolveDestination_keeps hdst
    rcases ht with rfl | rfl | rfl <;> simp [hp1, hp2]

/-- A step that goes on keeps the parameters. -/
theorem step_keeps_params {s t : State} (h : step s = .next t) : t.params = s.params := by
  obtain ⟨i, hx⟩ := step_next h
  rw [exec_keeps_params hx, ctx0_params]

/-- Settles O47: a step that goes on ran an instruction in ctx0, and a failure leaves ctx0 or the state before the fetch. -/
theorem everyStepKeepsTheInvariant : Obligations.EveryStepKeepsTheInvariant := by
  constructor
  · intro s t hi h
    obtain ⟨i, hx⟩ := step_next h
    exact ⟨exec_keeps_inv hi.ctx0 hx, step_keeps_params h⟩
  · intro s c info hi h
    rcases step_fault h with rfl | rfl
    · exact ⟨hi, rfl⟩
    · exact ⟨hi.ctx0, ctx0_params s⟩

/-! ### What ctx0 is (70_reset_and_hazards.md R170) -/

/-- Where the instruction-word fetch overflows, the step fails with the state before it. -/
theorem step_of_fetch_overflow {s : State} (h : ¬ StreamFits 1 s) :
    step s = .fault (.raised (.addressOverflow 0xFFFF) s) := by
  rcases step_cases s with ⟨-, -, -, he⟩ | ⟨hf, -⟩ | ⟨hf, -⟩
  · exact he
  · exact absurd hf h
  · exact absurd hf h

/-- Settles O8. -/
theorem fetchOverflowLeavesTheState : Obligations.FetchOverflowLeavesTheState :=
  fun _ => step_of_fetch_overflow

/-- ctx0 is one word on, with one fetch more and nothing handed over. -/
theorem ctx0_frame (s : State) :
    s.clearHandoff.afterStream.pc = s.pc + 1 ∧ s.clearHandoff.afterStream.ev = s.ev ++ [.fetch s.pc] ∧
    s.clearHandoff.afterStream.handoff = none ∧ SameRegsExcept [0] s s.clearHandoff.afterStream ∧
    s.clearHandoff.afterStream.mem = s.mem ∧ s.clearHandoff.afterStream.params = s.params ∧
    s.clearHandoff.afterStream.freeIdx = s.freeIdx := by
  refine ⟨?_, ?_, ?_, SameRegsExcept.ctx0 s, ?_, ctx0_params s, ?_⟩ <;> simp

/-- Settles O6: the step is the decoded instruction in ctx0. -/
theorem stepRunsTheDecodedInstruction : Obligations.StepRunsTheDecodedInstruction :=
  fun s _ hf hi => ⟨_, step_of_decode hf hi, ctx0_frame s⟩

/-! ### Failures (60_exceptions.md R149, R152, R154, R157) -/

/-- Settles O48: a fetch that overflows leaves the state, and every later failure leaves ctx0. -/
theorem failuresLeaveNoHalfDoneInstruction : Obligations.FailuresLeaveNoHalfDoneInstruction := by
  intro s c info h
  by_cases hf : StreamFits 1 s
  · right
    obtain rfl : c = s.clearHandoff.afterStream := by
      rcases step_cases s with ⟨hn, -⟩ | ⟨-, u, -, he⟩ | ⟨-, i, -, he⟩
      · exact absurd hf hn
      · rw [he] at h; cases h
        rfl
      · rw [he] at h
        rcases exec_not_next (i := i) (s := s.clearHandoff.afterStream) with ⟨t, hx⟩ | ⟨info', hx⟩ <;>
          rw [hx] at h <;> cases h
        rfl
    obtain ⟨hpc, hrest⟩ := ctx0_frame s
    exact ⟨hpc, by rw [State.faultingAddress, hpc, BitVec.add_sub_cancel], hrest⟩
  · left
    obtain ⟨-, hp, hpc⟩ := streamNext_of_not_fits hf
    rw [step_of_fetch_overflow hf] at h
    cases h
    exact ⟨rfl, rfl, hp, hpc⟩

/-- A source fails under `fault` only. -/
theorem addrOverflow_of_resolveSource_error {op : OperandRef} {s : State} {e : FaultInfo}
    (h : resolveSource op s = .error e) : s.params.addrOverflow = .fault := by
  by_cases hf : OperandFits op s
  · obtain ⟨v, t, he⟩ := resolveSource_of_fits hf
    rw [he] at h; cases h
  · exact (resolveSource_of_not_fits hf).1

/-- A destination overflows under `fault` only. -/
theorem addrOverflow_of_resolveDestination_overflow {op : OperandRef} {s : State} {a : Int}
    (h : resolveDestination op s = .error (.addressOverflow a)) : s.params.addrOverflow = .fault := by
  by_cases hl : LegalDestination op
  · by_cases hf : OperandFits op s
    · obtain ⟨loc, t, he⟩ := resolveDestination_of_fits hl hf
      rw [he] at h; cases h
    · exact (resolveDestination_of_not_fits hl hf).1
  · rw [resolveDestination_of_illegal s hl] at h
    cases h

/-- An instruction overflows under `fault` only (R154). -/
theorem addrOverflow_of_exec_overflow {i : Instr} {s c : State} {a : Int}
    (h : exec i s = .fault (.raised (.addressOverflow a) c)) : s.params.addrOverflow = .fault := by
  rcases i.eq_mk with ⟨o, b, dst, rfl⟩ | ⟨cond, offset, rfl⟩ | ⟨o, src, b, dst, rfl⟩
  · cases o with
    | rrc => exact addrOverflow_of_resolveDestination_overflow (runDestination_fault h)
    | swpb => exact addrOverflow_of_resolveDestination_overflow (runDestination_fault h)
    | rra => exact addrOverflow_of_resolveDestination_overflow (runDestination_fault h)
    | sxt => exact addrOverflow_of_resolveDestination_overflow (runDestination_fault h)
    | push => exact addrOverflow_of_resolveSource_error (execPush_fault h)
    | call => exact addrOverflow_of_resolveSource_error (execCall_fault h)
    | reti => cases h
  · rw [exec_mkJump] at h
    rcases runJump_cases cond offset s with ⟨-, he⟩ | ⟨-, -, he⟩ | ⟨-, -, hp, -⟩
    · rw [he] at h; cases h
    · rw [he] at h; cases h
    · exact hp
  · obtain ⟨hfail, hnext⟩ := exec_mkDouble o src b dst s
    rcases resolveDouble_cases src dst s with ⟨v, loc, s1, s2, -, -, hr⟩ | ⟨e, he, hr⟩
    · obtain ⟨t, ht⟩ := hnext v loc s2 hr
      rw [ht] at h; cases h
    · rw [hfail e hr] at h; cases h
      rcases he with hs | ⟨v, s1, hs, hd⟩
      · exact addrOverflow_of_resolveSource_error hs
      · obtain ⟨hp, -⟩ := resolveSource_keeps hs
        exact hp ▸ addrOverflow_of_resolveDestination_overflow hd

/-- A step overflows under `fault` only (R154). -/
theorem addrOverflow_of_step_overflow {s c : State} {a : Int} (h : step s = .fault (.raised (.addressOverflow a) c)) :
    s.params.addrOverflow = .fault := by
  rcases step_cases s with ⟨-, hp, -, -⟩ | ⟨-, u, -, he⟩ | ⟨-, i, -, he⟩
  · exact hp
  · rw [he] at h; cases h
  · rw [he] at h
    exact ctx0_params s ▸ addrOverflow_of_exec_overflow h

/-- A step goes on or fails, and never refuses. -/
theorem step_answers (s : State) : (∃ t, step s = .next t) ∨ ∃ info c, step s = .fault (.raised info c) := by
  rcases step_cases s with ⟨-, -, -, he⟩ | ⟨-, u, -, he⟩ | ⟨-, i, -, he⟩ <;> rw [he]
  · exact .inr ⟨_, _, rfl⟩
  · exact .inr ⟨_, _, rfl⟩
  · exact exec_not_next.imp_right fun ⟨info, hx⟩ => ⟨info, _, hx⟩

/-- Settles O49: the third kind of failure needs `fault`. -/
theorem stepsGoOnOrFailByTheTaxonomy : Obligations.StepsGoOnOrFailByTheTaxonomy := by
  intro s
  refine ⟨step_answers s, ?_⟩
  intro hw info c h
  cases info with
  | unknownOpcode => exact .inl rfl
  | invalidDestinationMode => exact .inr rfl
  | addressOverflow => exact absurd (hw.symm.trans (addrOverflow_of_step_overflow h)) (by decide)

end Sys2Proof.Machine
end

section
/-! SUPPORT. The statements of 10_state.md about the initial contexts (R29), of 20_memory.md about the block's memory (R31) and of
30_encoding.md about the formats' words (R50), the tabled words and the extension words (R71). -/

namespace Sys2Proof

/-! ### The formats' words (30_encoding.md R50) -/

/-- A Jump word by its value: the Jump pattern stands in it and the SingleOperand pattern does not (30_encoding.md R49). -/
theorem classify_eq_jump_iff (reading : Config.ClassifierReading) (w : Word) :
    classify reading w = .jump ↔
      w.toNat / 1024 ≠ (singlePattern reading).toNat ∧ w.toNat / 8192 = (jumpPattern reading).toNat := by
  rw [Ne, ← singlePattern_iff, ← jumpPattern_iff, classify_by_fields]
  split_ifs with hs hj <;> simp [*]

/-- Settles O2: each format is a pattern in the word's top bits, so its words are a range. -/
theorem formatsHoldTheirWordRanges : Obligations.FormatsHoldTheirWordRanges := by
  intro w
  simp only [classify_eq_single_iff, classify_eq_jump_iff, singlePattern, jumpPattern, BitVec.reduceToNat]
  refine ⟨?_, ?_, ?_, ?_, ?_, ?_⟩ <;> omega

/-- Settles O5, by running the decoder on the nine words. -/
theorem tabledWordsDecodeAsWritten : Obligations.TabledWordsDecodeAsWritten := by
  unfold Obligations.TabledWordsDecodeAsWritten
  decide

/-- The operand forms of R71's table are the ones with an extension word. -/
theorem OperandRef.extWords_eq (op : OperandRef) : op.extWords =
    if op.mode = .indexed ∨ op.mode = .absoluteAddressing ∨ (op.reg = 0 ∧ (op.mode = .indirect ∨ op.mode = .indirectIncrement))
    then 1 else 0 := by
  rcases op with ⟨r, m⟩
  cases m <;> simp [OperandRef.extWords]

end Sys2Proof

namespace Sys2Proof.Machine

/-! ### The pc after an operand (30_encoding.md R71) -/

/-- A destination moves the pc past its extension words. -/
theorem resolveDestination_pc {op : OperandRef} {s : State} {loc : Location} {t : State}
    (h : resolveDestination op s = .ok (loc, t)) : t.pc = s.pc + BitVec.ofNat 16 op.extWords := by
  rcases resolveDestination_context h with ⟨rfl, hn⟩ | ⟨rfl, hn, -⟩ <;> simp [hn]

/-- Settles O25: either role moves the pc past the operand's extension words, whose number is R71's table. -/
theorem operandsConsumeTheirExtensionWords : Obligations.OperandsConsumeTheirExtensionWords :=
  ⟨fun _ _ _ _ => resolveSource_pc, fun _ _ _ _ => resolveDestination_pc, fun op _ => op.extWords_eq⟩

/-! ### The block and memory (20_memory.md R31) -/

/-- A jump that goes on leaves the context, or writes its pc. -/
theorem runJump_next {c : Cond} {offset : Word} {s t : State} (h : runJump c offset s = .next t) :
    t = s ∨ t = s.setPc (s.pc + offset) := by
  rcases runJump_cases c offset s with ⟨-, he⟩ | ⟨-, -, he⟩ | ⟨-, -, -, he⟩ <;> rw [he] at h <;> cases h
  · exact .inl rfl
  · exact .inr rfl

/-- Settles O14: each operation leaves a context that differs in its pc, its events and a stepped register. -/
theorem theBlockNeverWritesMemory : Obligations.TheBlockNeverWritesMemory := by
  refine ⟨?source, ?destination, ?stream, ?jump⟩
  case source =>
    intro op s t v h
    obtain ⟨-, hm, -⟩ := resolveSource_keeps h
    exact hm
  case destination =>
    intro op s t loc h
    obtain ⟨-, hm, -⟩ := resolveDestination_keeps h
    exact hm
  case stream =>
    intro s t w h
    obtain ⟨-, rfl⟩ := State.streamNext_ok h
    exact State.afterStream_mem s
  case jump =>
    intro s t c offset h
    rw [exec_mkJump] at h
    rcases runJump_next h with rfl | rfl
    · rfl
    · exact State.setPc_mem s _

/-! ### The initial contexts (10_state.md R29) -/

/-- Every register but the zero register reads what INIT_CONTEXT gives. -/
theorem State.readReg_ofContext (p : Config.Params) (regs : Vector Word 16) (mem : Memory) {r : Reg} (h3 : r ≠ 3) :
    (State.ofContext p regs mem).readReg r = regs[r.val] := by
  have hne : (3 : Nat) ≠ r.val := fun h => h3 (Fin.ext h.symm)
  simp [State.readReg, State.ofContext, h3, Vector.getElem_set_ne _ _ hne]

theorem State.Inv.ofContext (p : Config.Params) (regs : Vector Word 16) {mem : Memory} (h : mem.wf) :
    (State.ofContext p regs mem).Inv := ⟨h, State.ofContext_zeroCell p regs mem⟩

/-- Settles O10: the fields are those of `State.ofContext`, of which `State.reset` is one. -/
theorem initialContextsAreAsListed : Obligations.InitialContextsAreAsListed :=
  ⟨fun p regs mem => ⟨rfl, rfl, rfl, rfl, rfl, fun _ => State.readReg_ofContext p regs mem, State.Inv.ofContext p regs⟩,
    State.Inv.ofContext _ _ Memory.wf_nil, rfl⟩

end Sys2Proof.Machine
end

section
/-! SUPPORT. The statements of 42_jump.md about the eight jumps (R120 to R131), with 10_state.md R26 and the halt loop. -/

namespace Sys2Proof.Machine

/-! ### The eight jumps (R120) -/

/-- The pairs of an instruction and its condition are those of `mkJump`. -/
theorem eq_mkJump {offset : Word} {i : Instr} {c : Cond}
    (h : (i, c) ∈ [(Instr.jne offset, Cond.notEqual), (.jeq offset, .equal), (.jnc offset, .lower), (.jc offset, .carrySet),
      (.jn offset, .negative), (.jge offset, .greaterOrEqual), (.jl offset, .lessThan), (.jmp offset, .always)]) :
    i = mkJump c offset := by
  simp only [List.mem_cons, Prod.mk.injEq, List.not_mem_nil, or_false] at h
  rcases h with ⟨rfl, rfl⟩ | ⟨rfl, rfl⟩ | ⟨rfl, rfl⟩ | ⟨rfl, rfl⟩ | ⟨rfl, rfl⟩ | ⟨rfl, rfl⟩ | ⟨rfl, rfl⟩ | ⟨rfl, rfl⟩ <;> rfl

/-- Settles O30: the three things a jump can answer. -/
theorem jumpsSteerThePc : Obligations.JumpsSteerThePc := by
  intro offset i c s h
  rw [eq_mkJump h, exec_mkJump]
  refine ⟨runJump_of_untaken, ?_, runJump_of_not_fits⟩
  intro hc hf
  exact ⟨_, runJump_of_fits hc hf, State.setPc_pc s _, SameRegsExcept.writeReg s 0 _, SameMemory.of_eq (State.setPc_mem s _),
    State.setPc_ev s _, State.setPc_handoff s _, State.setPc_params s _, State.setPc_freeIdx s _⟩

/-! ### The status bits a jump does not read (10_state.md R26) -/

/-- Writes to two registers commute. -/
theorem State.writeReg_comm (s : State) {r r' : Reg} (v v' : Word) (hne : r ≠ r') :
    (s.writeReg r v).writeReg r' v' = (s.writeReg r' v').writeReg r v := by
  have hval : r.val ≠ r'.val := fun h => hne (Fin.ext h)
  unfold State.writeReg
  split_ifs
  · rfl
  · rfl
  · rfl
  · simp only [Vector.set_comm _ _ hval]

/-- A new status word with the same C, Z, N and V: a jump answers the same, but for that word. -/
theorem runJump_writeStatus (c : Cond) (offset : Word) {s : State} {v : Word} (hv : v &&& 0x0107 = s.status &&& 0x0107) :
    (∀ t, runJump c offset s = .next t → runJump c offset (s.writeReg 2 v) = .next (t.writeReg 2 v)) ∧
    (∀ info ctx, runJump c offset s = .fault (.raised info ctx) →
      runJump c offset (s.writeReg 2 v) = .fault (.raised info (s.writeReg 2 v))) := by
  have hstatus : (s.writeReg 2 v).status = v := State.readReg_writeReg_same s 2 v (by decide)
  have hpc : (s.writeReg 2 v).pc = s.pc := State.pc_writeReg_other s 2 v (by decide)
  have hparams : (s.writeReg 2 v).params = s.params := State.writeReg_params s 2 v
  have hcond : evaluateCondition c (s.writeReg 2 v).status = evaluateCondition c s.status := by
    rw [hstatus]
    exact evaluateCondition_of_masked_eq c hv
  rcases runJump_cases c offset s with ⟨hc, he⟩ | ⟨hc, hf, he⟩ | ⟨hc, hf, -, he⟩ <;> rw [he]
  · refine ⟨?_, by simp⟩
    rintro t ⟨⟩
    exact runJump_of_untaken (hcond.trans hc)
  · refine ⟨?_, by simp⟩
    rintro t ⟨⟩
    rw [runJump_of_fits (hcond.trans hc) (by rwa [hpc, hparams]), hpc]
    exact congrArg _ (State.writeReg_comm s v _ (by decide))
  · refine ⟨by simp, ?_⟩
    rintro info ctx ⟨⟩
    rw [runJump_of_not_fits (hcond.trans hc) (by rwa [hpc, hparams]), hpc]

/-- Settles O32. -/
theorem otherStatusBitsNeverSteerAJump : Obligations.OtherStatusBitsNeverSteerAJump := by
  intro c offset s v hv
  simp only [exec_mkJump]
  exact runJump_writeStatus c offset hv

/-! ### The halt loop (42_jump.md section 3) -/

/-- A pc that is not at the top steps without wrapping. -/
theorem toNat_pc_succ {s : State} (h : s.pc.toNat + 1 ≤ 0xFFFF) : (s.pc + 1).toNat = s.pc.toNat + 1 :=
  BitVec.toNat_add_of_lt (Nat.lt_succ_of_le h)

/-- The sum that takes ctx0's pc back by one word fits where the fetch did. -/
theorem sumFits_ctx0_back {s : State} (hf : StreamFits 1 s) : SumFits s.params (s.pc + 1) 0xFFFF := by
  refine hf.imp_right fun h => ?_
  have hback : (0xFFFF : Word).toInt = -1 := by decide
  rw [toNat_pc_succ h, hback]
  omega

/-- The word 0x3FFF is JMP with offset -1 where it is a Jump word: the step is ctx0 with the pc back at the word. -/
theorem step_haltWord {s : State} (hr : s.params.reading ≠ .msbFirstLiteral) (hw : s.mem.word s.pc = 0x3FFF)
    (hf : StreamFits 1 s) : step s = .next (s.clearHandoff.afterStream.setPc s.pc) := by
  have hc : classify s.params.reading (s.mem.word s.pc) = .jump := by
    rw [hw]
    revert hr
    cases s.params.reading <;> decide
  obtain ⟨hpc, -, -, -, -, hparams, -⟩ := ctx0_frame s
  have hback : s.pc + 1 + 0xFFFF = s.pc := by rw [BitVec.add_assoc]; exact BitVec.add_zero _
  have hjump := runJump_of_fits (c := .always) (s := s.clearHandoff.afterStream) rfl
    (by rw [hparams, hpc]; exact sumFits_ctx0_back hf)
  rw [hpc, hback] at hjump
  rw [step_jumpWord hc hf, hw]
  exact hjump

/-- A turn of the halt loop reads every register as before it. -/
theorem SameRegsExcept.haltLoop (s : State) : SameRegsExcept [] s (s.clearHandoff.afterStream.setPc s.pc) := by
  intro r _
  by_cases h0 : r = 0
  · subst h0
    exact State.setPc_pc _ _
  · exact SameRegsExcept.ctx0_setPc s s.pc r (by simpa using h0)

/-- Settles O33. -/
theorem jumpToSelfOnlyFetches : Obligations.JumpToSelfOnlyFetches := by
  intro s hr hw hf
  refine ⟨_, step_haltWord hr hw hf, SameRegsExcept.haltLoop s, ?_⟩
  simp

end Sys2Proof.Machine
end

section
/-! SUPPORT. The statements of 43_double_operand.md about the instructions that complete (R132 to R147) and of 60_exceptions.md
about their failures (R155, R156), with 20_memory.md R47: `exec` of a double-operand instruction as one layer over its operands. -/

namespace Sys2Proof.Machine

/-! ### What a write through a location leaves unchanged (40_operand_resolver.md R101) -/

theorem SameRegsExcept.writeLoc (s : State) (loc : Location) (v : Word) : SameRegsExcept loc.regs s (s.writeLoc loc v) := by
  cases loc with
  | reg n => exact SameRegsExcept.writeReg s n v
  | mem a => exact SameRegsExcept.refl _ _

theorem SameMemoryExceptAt.writeLoc (s : State) (loc : Location) (v : Word) : SameMemoryExceptAt loc s (s.writeLoc loc v) := by
  cases loc with
  | reg n => exact SameMemory.of_eq (State.writeReg_mem s n v)
  | mem a => exact SameMemoryExcept.writeMem s a v

/-- The memory frames look at the first state's memory only. -/
theorem SameMemoryExceptAt.of_mem_eq {loc : Location} {s s' t : State} (hm : s'.mem = s.mem)
    (h : SameMemoryExceptAt loc s' t) : SameMemoryExceptAt loc s t := by
  cases loc <;> intro a <;> rw [← hm] <;> exact h a

/-- A free status word changes register 2 only. -/
theorem SameRegsExcept.layerFlags (s : State) : SameRegsExcept [2] s (layerFlags s) := by
  intro r hr
  exact layerFlags_regs_other s r (by simpa using hr)

/-! ### A double-operand instruction as one layer over its operands (R133, R135) -/

/-- What the execution layer does with the hand-over of a double-operand opcode: MOV's part, the flags alone for the two that
compare, and a result for the nine others (R136 to R147). -/
def layerDouble (o : DoubleOp) (b : Bool) (v : Word) (loc : Location) (s : State) : State :=
  match o with
  | .mov => layerMov b v loc s
  | .cmp => layerFlags s
  | .bit => layerFlags s
  | _ => layerResult loc s

@[simp] theorem layerDouble_handoff (o : DoubleOp) (b : Bool) (v : Word) (loc : Location) (s : State) :
    (layerDouble o b v loc s).handoff = s.handoff := by
  cases o <;> cases b <;> simp [layerDouble]

/-- Where its operands resolve, a double-operand instruction hands them over and its layer acts. -/
theorem exec_mkDouble_of_resolves {src dst : OperandRef} {s s2 : State} {v : Word} {loc : Location} (o : DoubleOp) (b : Bool)
    (h : resolveDouble src dst s = .ok ((v, loc), s2)) :
    exec (mkDouble o src b dst) s = .next (layerDouble o b v loc (s2.handOver ⟨.double o, b, .both v loc⟩)) := by
  cases o <;> simp only [mkDouble, exec_mov, exec_add, exec_addc, exec_subc, exec_sub, exec_cmp, exec_dadd, exec_bit, exec_bic,
    exec_bis, exec_xor, exec_and, execMov, runWriting, runReading, h] <;> rfl

/-- Where its operands fit, a double-operand instruction completes. -/
theorem exec_mkDouble_of_fits {src dst : OperandRef} {s : State} (o : DoubleOp) (b : Bool) (h : DoubleFits src dst s) :
    ∃ v loc s1 s2, resolveSource src s = .ok (v, s1) ∧ resolveDestination dst s1 = .ok (loc, s2) ∧
      exec (mkDouble o src b dst) s = .next (layerDouble o b v loc (s2.handOver ⟨.double o, b, .both v loc⟩)) := by
  obtain ⟨v, loc, s1, s2, hsrc, hdst, hr⟩ := resolveDouble_of_fits h
  exact ⟨v, loc, s1, s2, hsrc, hdst, exec_mkDouble_of_resolves o b hr⟩

/-- What a pair of operands leaves unchanged: all but the pc, the events and the register the source steps. -/
theorem resolvePair_keeps {src dst : OperandRef} {s s1 s2 : State} {v : Word} {loc : Location}
    (hsrc : resolveSource src s = .ok (v, s1)) (hdst : resolveDestination dst s1 = .ok (loc, s2)) :
    s2.params = s.params ∧ s2.mem = s.mem ∧ s2.freeIdx = s.freeIdx ∧ SameRegsExcept (0 :: steppedRegs src) s s2 := by
  obtain ⟨hp1, hm1, -, hf1, -⟩ := resolveSource_keeps hsrc
  obtain ⟨hp2, hm2, -, hf2, -⟩ := resolveDestination_keeps hdst
  refine ⟨hp2.trans hp1, hm2.trans hm1, hf2.trans hf1, ?_⟩
  exact ((resolveSource_regs hsrc).trans (resolveDestination_regs hdst)).mono (by simp [or_comm])

/-! ### The instructions that complete (R136 to R147) -/

/-- Settles O34: MOV with b = 0 is one write through its location, after the hand-over. -/
theorem movWordWritesItsSource : Obligations.MovWordWritesItsSource := by
  intro src dst s h
  obtain ⟨v, loc, s1, s2, hsrc, hdst, hx⟩ := exec_mkDouble_of_fits .mov false h
  obtain ⟨hp, hm, hf, hregs⟩ := resolvePair_keeps hsrc hdst
  have hwrite := SameRegsExcept.writeLoc (s2.handOver ⟨.double .mov, false, .both v loc⟩) loc v
  refine ⟨v, loc, s1, s2, _, hsrc, hdst, hx, State.writeLoc_handoff _ _ _, ?register, ?memory, hwrite, hregs.trans hwrite,
    (SameMemoryExceptAt.writeLoc _ loc v).of_mem_eq hm, State.writeLoc_ev _ _ _, ?_, ?_⟩
  case register =>
    rintro n rfl hn
    exact State.readReg_writeReg_same _ n v hn
  case memory =>
    rintro a rfl
    exact Memory.word_setWord_same s2.mem a v
  · exact (State.writeLoc_params _ _ _).trans hp
  · exact (State.writeLoc_freeIdx _ _ _).trans hf

/-- The instructions that let the layer write a result are those whose layer is `layerResult`. -/
theorem eq_mkDouble_of_writing {src dst : OperandRef} {b : Bool} {i : Instr} {o : DoubleOp}
    (h : (i, o) ∈ [(Instr.add src b dst, DoubleOp.add), (.addc src b dst, .addc), (.subc src b dst, .subc),
      (.sub src b dst, .sub), (.dadd src b dst, .dadd), (.bic src b dst, .bic), (.bis src b dst, .bis), (.xor src b dst, .xor),
      (.and src b dst, .and)] ∨ (i = .mov src b dst ∧ o = .mov ∧ b = true)) :
    i = mkDouble o src b dst ∧ ∀ v loc s, layerDouble o b v loc s = layerResult loc s := by
  simp only [List.mem_cons, Prod.mk.injEq, List.not_mem_nil, or_false] at h
  rcases h with (⟨rfl, rfl⟩ | ⟨rfl, rfl⟩ | ⟨rfl, rfl⟩ | ⟨rfl, rfl⟩ | ⟨rfl, rfl⟩ | ⟨rfl, rfl⟩ | ⟨rfl, rfl⟩ | ⟨rfl, rfl⟩ |
    ⟨rfl, rfl⟩) | ⟨rfl, rfl, rfl⟩ <;> exact ⟨rfl, fun _ _ _ => rfl⟩

/-- Settles O35: the layer writes a result through the location and the status word. -/
theorem resultWritingInstructionsComplete : Obligations.ResultWritingInstructionsComplete := by
  intro src dst b i o s hi h
  obtain ⟨rfl, hlayer⟩ := eq_mkDouble_of_writing hi
  obtain ⟨v, loc, s1, s2, hsrc, hdst, hx⟩ := exec_mkDouble_of_fits o b h
  obtain ⟨hp, hm, -, hregs⟩ := resolvePair_keeps hsrc hdst
  rw [hlayer] at hx
  have hresult := layerResult_regs (s2.handOver ⟨.double o, b, .both v loc⟩) loc
  exact ⟨v, loc, s1, s2, _, hsrc, hdst, hx, layerResult_handoff _ _, hresult, hregs.trans hresult,
    (layerResult_memory _ loc).of_mem_eq hm, layerResult_ev _ _, (layerResult_params _ _).trans hp⟩

/-- Settles O36: the layer writes the status word and stores nothing. -/
theorem comparingInstructionsStoreNothing : Obligations.ComparingInstructionsStoreNothing := by
  intro src dst b i o s hi h
  obtain ⟨rfl, hlayer⟩ : i = mkDouble o src b dst ∧ ∀ v loc s, layerDouble o b v loc s = layerFlags s := by
    simp only [List.mem_cons, Prod.mk.injEq, List.not_mem_nil, or_false] at hi
    rcases hi with ⟨rfl, rfl⟩ | ⟨rfl, rfl⟩ <;> exact ⟨rfl, fun _ _ _ => rfl⟩
  obtain ⟨v, loc, s1, s2, hsrc, hdst, hx⟩ := exec_mkDouble_of_fits o b h
  obtain ⟨hp, hm, -, hregs⟩ := resolvePair_keeps hsrc hdst
  rw [hlayer] at hx
  have hflags := SameRegsExcept.layerFlags (s2.handOver ⟨.double o, b, .both v loc⟩)
  exact ⟨v, loc, s1, s2, _, hsrc, hdst, hx, layerFlags_handoff _, hflags, hregs.trans hflags,
    SameMemory.of_eq ((layerFlags_mem _).trans hm), layerFlags_ev _, (layerFlags_params _).trans hp⟩

/-! ### A destination on the register its source steps (20_memory.md R47, 40_operand_resolver.md R103) -/

/-- @Rn+ to X(Rn): the value is at the register's value, the address is at the stepped value plus the displacement. -/
theorem resolveDouble_stepped {r : Reg} {s : State} (h0 : r ≠ 0) (h3 : r ≠ 3) (hf : StreamFits 1 s)
    (hs : SumFits s.params (s.readReg r + 1) (s.mem.word s.pc)) :
    ∃ s2, resolveDouble ⟨r, .indirectIncrement⟩ ⟨r, .indexed⟩ s =
        .ok ((s.mem.word (s.readReg r), .mem (s.readReg r + 1 + s.mem.word s.pc)), s2) ∧
      s2.readReg r = s.readReg r + 1 ∧ s2.mem = s.mem := by
  have hsrc := resolveSource_indirectIncrement (op := ⟨r, .indirectIncrement⟩) s rfl h0
  generalize hs1 : (s.afterRead (s.readReg r)).writeReg r (s.readReg r + 1) = s1 at hsrc
  have hreg : s1.readReg r = s.readReg r + 1 := hs1 ▸ State.readReg_writeReg_same _ _ _ h3
  have hpc : s1.pc = s.pc := hs1 ▸ State.pc_writeReg_other _ _ _ h0
  have hparams : s1.params = s.params := hs1 ▸ State.writeReg_params _ _ _
  have hmem : s1.mem = s.mem := hs1 ▸ State.writeReg_mem _ _ _
  have hword : s1.mem.word s1.pc = s.mem.word s.pc := by rw [hpc, hmem]
  have hbase : indexedBase r s1 = s.readReg r + 1 := (if_neg h0).trans hreg
  have hfits : OperandFits ⟨r, .indexed⟩ s1 := by
    constructor
    · show StreamFits 1 s1
      rwa [StreamFits, hpc, hparams]
    · intro _
      rwa [hparams, hbase, hword]
  have hdst := resolveDestination_indexed hfits
  rw [hbase, hword] at hdst
  refine ⟨s1.afterStream, by simp only [resolveDouble, hsrc, hdst], ?_, (State.afterStream_mem s1).trans hmem⟩
  exact (State.readReg_afterStream_other s1 r h0).trans hreg

/-- Settles O27: the twelve opcodes hand over the pair so resolved, and MOV with b = 0 writes it. -/
theorem destinationSeesTheSteppedRegister : Obligations.DestinationSeesTheSteppedRegister := by
  rintro r b i o s h0 - h3 hf hs rfl
  obtain ⟨s2, hr, hreg, hmem⟩ := resolveDouble_stepped h0 h3 hf hs
  refine ⟨_, exec_mkDouble_of_resolves o b hr, layerDouble_handoff _ _ _ _ _, ?_⟩
  rintro rfl rfl
  exact ⟨hreg, Memory.word_setWord_same s2.mem _ _, (SameMemoryExceptAt.writeLoc _ (.mem _) _).of_mem_eq hmem⟩

/-! ### The instructions that fail (60_exceptions.md R155, R156) -/

/-- The twelve instructions of the format are those of `mkDouble`. -/
theorem exists_eq_mkDouble {src dst : OperandRef} {b : Bool} {i : Instr}
    (h : i ∈ [Instr.mov src b dst, .add src b dst, .addc src b dst, .subc src b dst, .sub src b dst, .cmp src b dst,
      .dadd src b dst, .bit src b dst, .bic src b dst, .bis src b dst, .xor src b dst, .and src b dst]) :
    ∃ o, i = mkDouble o src b dst := by
  simp only [List.mem_cons, List.not_mem_nil, or_false] at h
  rcases h with h | h | h | h | h | h | h | h | h | h | h | h
  exacts [⟨.mov, h⟩, ⟨.add, h⟩, ⟨.addc, h⟩, ⟨.subc, h⟩, ⟨.sub, h⟩, ⟨.cmp, h⟩, ⟨.dadd, h⟩, ⟨.bit, h⟩, ⟨.bic, h⟩, ⟨.bis, h⟩,
    ⟨.xor, h⟩, ⟨.and, h⟩]

/-- Settles O37: the pair fails with the destination's tag, and the instruction with what its pair does. -/
theorem doubleDestinationFailureUndoesTheSource : Obligations.DoubleDestinationFailureUndoesTheSource := by
  intro src dst b i s hi hs hl
  obtain ⟨o, rfl⟩ := exists_eq_mkDouble hi
  obtain ⟨hfail, -⟩ := exec_mkDouble o src b dst s
  exact ⟨hfail _ (resolveDouble_of_illegal hs hl), fun ha => eq_const1_of_illegal ha hl⟩

/-- A source that overflows fails the pair, whatever the destination. -/
theorem resolveDouble_of_source_overflow {src : OperandRef} (dst : OperandRef) {s : State} (h : ¬ OperandFits src s) :
    resolveDouble src dst s = .error (.addressOverflow (overflowValue src s)) := by
  obtain ⟨-, hsrc⟩ := resolveSource_of_not_fits h
  simp only [resolveDouble, hsrc]

/-- A destination that overflows fails the pair in the context the source leaves, whose parameters are the same. -/
theorem resolveDouble_of_destination_overflow {src dst : OperandRef} {s : State} (hs : OperandFits src s)
    (hl : LegalDestination dst) (h : ¬ OperandFits dst (afterSource src s)) :
    s.params.addrOverflow = .fault ∧
      resolveDouble src dst s = .error (.addressOverflow (overflowValue dst (afterSource src s))) := by
  obtain ⟨v, s1, hsrc⟩ := resolveSource_of_fits hs
  obtain ⟨hp, -⟩ := resolveSource_keeps hsrc
  have hafter : afterSource src s = s1 := by simp only [afterSource, hsrc]
  rw [hafter] at h ⊢
  obtain ⟨hfault, hdst⟩ := resolveDestination_of_not_fits hl h
  exact ⟨hp ▸ hfault, by simp only [resolveDouble, hsrc, hdst]⟩

/-- Settles O38: the pair fails with its first operand that does not fit. -/
theorem sourceOverflowComesBeforeTheDestination : Obligations.SourceOverflowComesBeforeTheDestination := by
  intro src dst b i s hi
  obtain ⟨o, rfl⟩ := exists_eq_mkDouble hi
  obtain ⟨hfail, -⟩ := exec_mkDouble o src b dst s
  constructor
  · intro h
    exact ⟨(resolveSource_of_not_fits h).1, hfail _ (resolveDouble_of_source_overflow dst h)⟩
  · intro hs hl h
    obtain ⟨hfault, hr⟩ := resolveDouble_of_destination_overflow hs hl h
    exact ⟨hfault, hfail _ hr⟩

end Sys2Proof.Machine
end

section
/-! SUPPORT. The statements of 41_single_operand.md (R107 to R117), and of 20_memory.md about the width flag (R38). -/

namespace Sys2Proof.Machine

/-! ### The layers of PUSH, CALL and RETI (R110; log entry 4) -/

theorem SameRegsExcept.layerPush (s : State) : SameRegsExcept [1, 2] s (layerPush s) := by
  intro r hr
  obtain ⟨h1, h2⟩ : r ≠ 1 ∧ r ≠ 2 := by simpa using hr
  rw [Machine.layerPush, layerFlags_regs_other _ r h2, layerStack_regs_other _ r h1]

theorem SameRegsExcept.layerCall (s : State) : SameRegsExcept [0, 1, 2] s (layerCall s) := by
  intro r hr
  obtain ⟨h0, h1, h2⟩ : r ≠ 0 ∧ r ≠ 1 ∧ r ≠ 2 := by simpa using hr
  rw [Machine.layerCall, layerFlags_regs_other _ r h2, layerPc_regs_other _ r h0, layerStack_regs_other _ r h1]

theorem SameRegsExcept.layerReti (s : State) : SameRegsExcept [0, 1, 2] s (layerReti s) := by
  intro r hr
  obtain ⟨h0, h1, h2⟩ : r ≠ 0 ∧ r ≠ 1 ∧ r ≠ 2 := by simpa using hr
  rw [Machine.layerReti, layerFlags_regs_other _ r h2, layerRetiPc_regs_other _ r h0, layerPop_regs_other _ r h1]

@[simp] theorem layerPush_handoff (s : State) : (layerPush s).handoff = s.handoff := by simp [layerPush]
@[simp] theorem layerCall_handoff (s : State) : (layerCall s).handoff = s.handoff := by simp [layerCall]
@[simp] theorem layerReti_handoff (s : State) : (layerReti s).handoff = s.handoff := by simp [layerReti]

@[simp] theorem layerPush_mem (s : State) : (layerPush s).mem = (layerStack s).mem := layerFlags_mem _
@[simp] theorem layerCall_mem (s : State) : (layerCall s).mem = (layerStack s).mem := by simp [layerCall]
@[simp] theorem layerReti_mem (s : State) : (layerReti s).mem = s.mem := by simp [layerReti]

/-- The stack layer stores one word, at the free address drawn second: the one the state before the operand draws there too,
since the resolver draws none (log entry 5). -/
theorem SameMemoryExcept.layerStack {s s1 t : State} (hm : s1.mem = s.mem) (hf : s1.freeIdx = s.freeIdx)
    (ht : t.mem = (layerStack s1).mem) : SameMemoryExcept (s.freeWord 1) s t := by
  have hw : s1.freeWord 1 = s.freeWord 1 := by rw [State.freeWord, State.freeWord, hf]
  intro a ha
  rw [ht, layerStack_mem, hm, hw, Memory.word_setWord_other _ _ ha]

/-! ### RRC, SWPB, RRA and SXT (R108, R111 to R114) -/

theorem runDestination_of_ok {dst : OperandRef} {s s1 : State} {loc : Location} (o : SingleOp) (b : Bool)
    (h : resolveDestination dst s = .ok (loc, s1)) :
    runDestination o b dst s = .next (layerResult loc (s1.handOver ⟨.single o, b, .location loc⟩)) := by
  simp only [runDestination, h]

theorem runDestination_of_error {dst : OperandRef} {s : State} {e : FaultInfo} (o : SingleOp) (b : Bool)
    (h : resolveDestination dst s = .error e) : runDestination o b dst s = .fault (.raised e s) := by
  simp only [runDestination, h, State.raise]

/-- Settles O39: the layer writes a result through the location and the status word. -/
theorem destinationRoleInstructionsComplete : Obligations.DestinationRoleInstructionsComplete := by
  intro dst b i o s hi hl hf
  have hrun : exec i s = runDestination o b dst s := by
    simp only [List.mem_cons, Prod.mk.injEq, List.not_mem_nil, or_false] at hi
    rcases hi with ⟨rfl, rfl⟩ | ⟨rfl, rfl⟩ | ⟨rfl, rfl⟩ | ⟨rfl, rfl⟩ <;> rfl
  obtain ⟨loc, s1, hdst⟩ := resolveDestination_of_fits hl hf
  obtain ⟨hp, hm, -⟩ := resolveDestination_keeps hdst
  have hresult := layerResult_regs (s1.handOver ⟨.single o, b, .location loc⟩) loc
  exact ⟨loc, s1, _, hdst, hrun.trans (runDestination_of_ok o b hdst), layerResult_handoff _ _, hresult,
    (resolveDestination_regs hdst).trans hresult, (layerResult_memory _ loc).of_mem_eq hm, layerResult_ev _ _,
    (layerResult_params _ _).trans hp⟩

/-- Settles O40: the instruction fails with what its destination does. -/
theorem destinationRoleInstructionsFail : Obligations.DestinationRoleInstructionsFail := by
  intro dst b i s hi
  obtain ⟨o, hrun⟩ : ∃ o, exec i s = runDestination o b dst s := by
    simp only [List.mem_cons, List.not_mem_nil, or_false] at hi
    rcases hi with rfl | rfl | rfl | rfl
    exacts [⟨.rrc, rfl⟩, ⟨.swpb, rfl⟩, ⟨.rra, rfl⟩, ⟨.sxt, rfl⟩]
  rw [hrun]
  refine ⟨runDestination_of_illegal o b s, ?_⟩
  intro hl hf
  obtain ⟨hfault, hdst⟩ := resolveDestination_of_not_fits hl hf
  exact ⟨hfault, runDestination_of_error o b hdst⟩

/-! ### PUSH and CALL (R108, R115, R116) -/

theorem execPush_of_ok {dst : OperandRef} {s s1 : State} {v : Word} (b : Bool) (h : resolveSource dst s = .ok (v, s1)) :
    execPush b dst s = .next (layerPush (s1.handOver ⟨.single .push, b, .value v⟩)) := by
  simp only [execPush, h]

theorem execPush_of_error {dst : OperandRef} {s : State} {e : FaultInfo} (b : Bool) (h : resolveSource dst s = .error e) :
    execPush b dst s = .fault (.raised e s) := by
  simp only [execPush, h, State.raise]

theorem execCall_of_ok {dst : OperandRef} {s s1 : State} {v : Word} (b : Bool) (h : resolveSource dst s = .ok (v, s1)) :
    execCall b dst s = .next (layerCall (s1.handOver ⟨.single .call, b, .value v⟩)) := by
  simp only [execCall, h]

theorem execCall_of_error {dst : OperandRef} {s : State} {e : FaultInfo} (b : Bool) (h : resolveSource dst s = .error e) :
    execCall b dst s = .fault (.raised e s) := by
  simp only [execCall, h, State.raise]

/-- Settles O41: PUSH's layer changes the stack pointer, the status word and one word of memory. -/
theorem pushHandsOverItsValue : Obligations.PushHandsOverItsValue := by
  intro dst b s h
  obtain ⟨v, s1, hsrc⟩ := resolveSource_of_fits h
  obtain ⟨hp, hm, -, hf, -⟩ := resolveSource_keeps hsrc
  have hpush := SameRegsExcept.layerPush (s1.handOver ⟨.single .push, b, .value v⟩)
  exact ⟨v, s1, _, hsrc, execPush_of_ok b hsrc, layerPush_handoff _, hpush, (resolveSource_regs hsrc).trans hpush,
    SameMemoryExcept.layerStack hm hf (layerPush_mem _), layerPush_ev _, (layerPush_params _).trans hp⟩

/-- Settles O42: CALL's layer changes the pc besides. -/
theorem callHandsOverItsTarget : Obligations.CallHandsOverItsTarget := by
  intro dst b s h
  obtain ⟨v, s1, hsrc⟩ := resolveSource_of_fits h
  obtain ⟨hp, hm, -, hf, -⟩ := resolveSource_keeps hsrc
  have hcall := SameRegsExcept.layerCall (s1.handOver ⟨.single .call, b, .value v⟩)
  exact ⟨v, s1, _, hsrc, execCall_of_ok b hsrc, layerCall_handoff _, hcall, (resolveSource_regs hsrc).trans hcall,
    SameMemoryExcept.layerStack hm hf (layerCall_mem _), layerCall_ev _, (layerCall_params _).trans hp⟩

/-- A source that fails does not fit. -/
theorem not_operandFits_of_error {op : OperandRef} {s : State} {e : FaultInfo} (h : resolveSource op s = .error e) :
    ¬ OperandFits op s := by
  intro hf
  obtain ⟨v, t, he⟩ := resolveSource_of_fits hf
  rw [he] at h; cases h

/-- Settles O43: either instruction fails with what its source does, which fails exactly where it does not fit. -/
theorem pushAndCallFailOnOverflowOnly : Obligations.PushAndCallFailOnOverflowOnly := by
  intro dst b i s hi
  have overflow (h : ¬ OperandFits dst s) := resolveSource_of_not_fits h
  simp only [List.mem_cons, List.not_mem_nil, or_false] at hi
  rcases hi with rfl | rfl
  · refine ⟨fun h => ⟨(overflow h).1, execPush_of_error b (overflow h).2⟩, ?_⟩
    rintro ⟨info, c⟩ h
    exact not_operandFits_of_error (execPush_fault h)
  · refine ⟨fun h => ⟨(overflow h).1, execCall_of_error b (overflow h).2⟩, ?_⟩
    rintro ⟨info, c⟩ h
    exact not_operandFits_of_error (execCall_fault h)

/-! ### RETI (R117) -/

/-- Settles O44: RETI is its layer on the context it was given, whatever its field. -/
theorem retiResolvesNoOperand : Obligations.RetiResolvesNoOperand := by
  intro dst b s
  exact ⟨layerReti (s.handOver ⟨.single .reti, b, .nothing⟩), rfl, layerReti_handoff _, layerReti_ev _,
    SameRegsExcept.layerReti (s.handOver _), layerReti_pc (s.handOver _), SameMemory.of_eq (layerReti_mem _),
    layerReti_params _⟩

/-! ### The width flag (20_memory.md R38) -/

/-- Whatever its width flag, the instruction either resolves to one context, makes one hand-over there but for the flag, and lets
its layer change no register but the layer's; or it fails in one way. -/
def HandsOverAlike (i : Bool → Instr) (s : State) : Prop :=
  (∃ op operand s1, ∀ b, ∃ t, exec (i b) s = .next t ∧ t.ev = s1.ev ∧ t.handoff = some ⟨op, b, operand⟩ ∧
    SameRegsExcept (Handoff.layerRegs ⟨op, false, operand⟩) s1 t) ∨
  ∃ f, ∀ b, exec (i b) s = .fault f

theorem handsOverAlike_destination {o : SingleOp} (dst : OperandRef) {i : Bool → Instr} (s : State)
    (hrun : ∀ b, exec (i b) s = runDestination o b dst s)
    (hregs : ∀ loc, Handoff.layerRegs ⟨.single o, false, .location loc⟩ = 2 :: loc.regs) : HandsOverAlike i s := by
  rcases hdst : resolveDestination dst s with e | ⟨loc, s1⟩
  · exact .inr ⟨_, fun b => (hrun b).trans (runDestination_of_error o b hdst)⟩
  · refine .inl ⟨.single o, .location loc, s1, fun b => ⟨_, (hrun b).trans (runDestination_of_ok o b hdst), layerResult_ev _ _,
      layerResult_handoff _ _, ?_⟩⟩
    rw [hregs]
    exact layerResult_regs (s1.handOver _) loc

theorem handsOverAlike_push (dst : OperandRef) (s : State) : HandsOverAlike (fun b => .push b dst) s := by
  rcases hsrc : resolveSource dst s with e | ⟨v, s1⟩
  · exact .inr ⟨_, fun b => execPush_of_error b hsrc⟩
  · exact .inl ⟨.single .push, .value v, s1, fun b => ⟨_, execPush_of_ok b hsrc, layerPush_ev _, layerPush_handoff _,
      SameRegsExcept.layerPush (s1.handOver _)⟩⟩

theorem handsOverAlike_call (dst : OperandRef) (s : State) : HandsOverAlike (fun b => .call b dst) s := by
  rcases hsrc : resolveSource dst s with e | ⟨v, s1⟩
  · exact .inr ⟨_, fun b => execCall_of_error b hsrc⟩
  · exact .inl ⟨.single .call, .value v, s1, fun b => ⟨_, execCall_of_ok b hsrc, layerCall_ev _, layerCall_handoff _,
      SameRegsExcept.layerCall (s1.handOver _)⟩⟩

theorem handsOverAlike_reti (dst : OperandRef) (s : State) : HandsOverAlike (fun b => .reti b dst) s :=
  .inl ⟨.single .reti, .nothing, s, fun _ => ⟨_, rfl, layerReti_ev _, layerReti_handoff _,
    SameRegsExcept.layerReti (s.handOver _)⟩⟩

@[simp] theorem layerDouble_ev (o : DoubleOp) (b : Bool) (v : Word) (loc : Location) (s : State) :
    (layerDouble o b v loc s).ev = s.ev := by
  cases o <;> cases b <;> simp [layerDouble]

/-- The layer of a double-operand opcode changes the registers of `Handoff.layerRegs` only. -/
theorem layerDouble_regs (o : DoubleOp) (b : Bool) (v : Word) (loc : Location) (s : State) :
    SameRegsExcept (Handoff.layerRegs ⟨.double o, false, .both v loc⟩) s (layerDouble o b v loc s) := by
  cases o with
  | mov =>
    cases b with
    | false => exact (SameRegsExcept.writeLoc s loc v).mono fun r hr => List.mem_cons_of_mem 2 hr
    | true => exact layerResult_regs s loc
  | cmp => exact SameRegsExcept.layerFlags s
  | bit => exact SameRegsExcept.layerFlags s
  | _ => exact layerResult_regs s loc

theorem handsOverAlike_double (o : DoubleOp) (src dst : OperandRef) (s : State) :
    HandsOverAlike (fun b => mkDouble o src b dst) s := by
  rcases resolveDouble_cases src dst s with ⟨v, loc, s1, s2, -, -, hr⟩ | ⟨e, -, hr⟩
  · exact .inl ⟨.double o, .both v loc, s2, fun b => ⟨_, exec_mkDouble_of_resolves o b hr, layerDouble_ev _ _ _ _ _,
      layerDouble_handoff _ _ _ _ _, layerDouble_regs o b v loc (s2.handOver _)⟩⟩
  · exact .inr ⟨_, fun b => (exec_mkDouble o src b dst s).1 e hr⟩

/-- Settles O45: all nineteen instructions hand over alike, so the two runs agree with the context their operands leave. -/
theorem widthFlagChangesNoResolution : Obligations.WidthFlagChangesNoResolution := by
  intro src dst i s hi
  have halike : HandsOverAlike i s := by
    simp only [List.mem_cons, List.not_mem_nil, or_false] at hi
    rcases hi with rfl | rfl | rfl | rfl | rfl | rfl | rfl | rfl | rfl | rfl | rfl | rfl | rfl | rfl | rfl | rfl | rfl | rfl | rfl
    iterate 4 exact handsOverAlike_destination dst s (fun _ => rfl) (fun _ => rfl)
    exacts [handsOverAlike_push dst s, handsOverAlike_call dst s, handsOverAlike_reti dst s,
      handsOverAlike_double .mov src dst s, handsOverAlike_double .add src dst s, handsOverAlike_double .addc src dst s,
      handsOverAlike_double .subc src dst s, handsOverAlike_double .sub src dst s, handsOverAlike_double .cmp src dst s,
      handsOverAlike_double .dadd src dst s, handsOverAlike_double .bit src dst s, handsOverAlike_double .bic src dst s,
      handsOverAlike_double .bis src dst s, handsOverAlike_double .xor src dst s, handsOverAlike_double .and src dst s]
  rcases halike with ⟨op, operand, s1, hnext⟩ | ⟨f, hfail⟩
  · obtain ⟨t, hx, hev, hho, hregs⟩ := hnext false
    obtain ⟨t', hx', hev', hho', hregs'⟩ := hnext true
    rw [hx, hx']
    refine ⟨?_, by simp⟩
    rintro _ ⟨⟩
    exact ⟨t', _, rfl, hev'.trans hev.symm, hho, hho', fun r hr => (hregs' r hr).trans (hregs r hr).symm⟩
  · rw [hfail false, hfail true]
    exact ⟨by simp, fun _ => .rfl⟩

end Sys2Proof.Machine
end

section
/-! SUPPORT. The statements of 70_reset_and_hazards.md about the ends of a trace (R171, R172) and the word after RETI (R169). -/

namespace Sys2Proof.Machine

/-! ### The turn that ends a trace (R171, R172) -/

/-- The step at `s` goes on to `t` and the trace with it. -/
def GoesOn (s t : State) : Prop := step s = .next t ∧ s.mem.word s.pc ≠ 0x3FFF ∧ HasReferenceMeaning t.handoff

/-- The turn at `s` is the trace's last, and its end is `e`: running out of fuel is no turn's end. -/
def TurnEnds (s : State) : TraceEnd → Prop
  | .normal t => s.mem.word s.pc = 0x3FFF ∧ step s = .next t
  | .abnormal f => step s = .fault f
  | .refused h => ∃ t, step s = .next t ∧ s.mem.word s.pc ≠ 0x3FFF ∧ ¬ HasReferenceMeaning t.handoff ∧ h = t.handoff
  | .outOfFuel _ => False

theorem traceReaches_succ (k : Nat) (s s' : State) :
    TraceReaches (k + 1) s s' ↔ ∃ t, GoesOn s t ∧ TraceReaches k t s' := by
  simp only [TraceReaches, GoesOn, and_assoc]

/-- A turn that goes on does so to one state, and ends nothing. -/
theorem GoesOn.unique {s t t' : State} (h : GoesOn s t) (h' : GoesOn s t') : t' = t := by
  have he := h'.1.symm.trans h.1
  cases he
  rfl

theorem GoesOn.not_turnEnds {s t : State} (h : GoesOn s t) (e : TraceEnd) : ¬ TurnEnds s e := by
  obtain ⟨hx, hw, hm⟩ := h
  cases e with
  | normal u => exact fun he => hw he.1
  | abnormal f =>
    intro he
    rw [TurnEnds, hx] at he
    cases he
  | refused ho =>
    rintro ⟨u, hu, -, hn, -⟩
    rw [hx] at hu; cases hu
    exact hn hm
  | outOfFuel u => exact id

/-- The end of the turn is the end of every trace that has fuel for it. -/
theorem TurnEnds.trace {s : State} {e : TraceEnd} (h : TurnEnds s e) (k : Nat) : referenceTrace (k + 1) s = e := by
  cases e with
  | normal t =>
    obtain ⟨hw, hx⟩ := h
    simp [referenceTrace, hx, (atHaltWord_iff s).2 hw]
  | abnormal f =>
    have hx : step s = .fault f := h
    simp [referenceTrace, hx]
  | refused ho =>
    obtain ⟨t, hx, hw, hn, rfl⟩ := h
    have ha : s.atHaltWord = false := Bool.not_eq_true _ ▸ mt (atHaltWord_iff s).1 hw
    have hm : referenceMeaning t.handoff = false := Bool.not_eq_true _ ▸ mt (referenceMeaning_iff _).1 hn
    simp [referenceTrace, hx, ha, hm]
  | outOfFuel t => exact h.elim

/-- A turn goes on, or it ends the trace. -/
theorem referenceTrace_turn (k : Nat) (s : State) :
    (∃ t, GoesOn s t ∧ referenceTrace (k + 1) s = referenceTrace k t) ∨
    TurnEnds s (referenceTrace (k + 1) s) := by
  rcases referenceTrace_succ_cases k s with ⟨f, hx, he⟩ | ⟨t, hx, hw, he⟩ | ⟨t, hx, hw, hm, he⟩ | ⟨t, hx, hw, hm, he⟩
  · exact .inr (he ▸ hx)
  · exact .inr (he ▸ ⟨hw, hx⟩)
  · exact .inl ⟨t, ⟨hx, hw, hm⟩, he⟩
  · exact .inr (he ▸ ⟨t, hx, hw, hm, rfl⟩)

/-- Out of fuel exactly when as many turns as there is fuel went on. -/
theorem referenceTrace_outOfFuel_iff (fuel : Nat) (s s' : State) :
    referenceTrace fuel s = .outOfFuel s' ↔ TraceReaches fuel s s' := by
  induction fuel generalizing s with
  | zero => simp [referenceTrace, TraceReaches, eq_comm]
  | succ k ih =>
    rw [traceReaches_succ]
    rcases referenceTrace_turn k s with ⟨t, hgo, he⟩ | hend
    · rw [he, ih]
      exact ⟨fun h => ⟨t, hgo, h⟩, fun ⟨t', hgo', h⟩ => hgo.unique hgo' ▸ h⟩
    · constructor
      · intro h
        rw [h] at hend
        exact hend.elim
      · rintro ⟨t, hgo, -⟩
        exact absurd hend (hgo.not_turnEnds _)

/-- A trace has the end `e` exactly when, within its fuel, it reaches a turn that ends so. -/
theorem referenceTrace_eq_iff {e : TraceEnd} (hfuel : ∀ s', e ≠ .outOfFuel s') (fuel : Nat) (s : State) :
    referenceTrace fuel s = e ↔ ∃ k s', k < fuel ∧ TraceReaches k s s' ∧ TurnEnds s' e := by
  induction fuel generalizing s with
  | zero => simpa [referenceTrace] using (hfuel s).symm
  | succ n ih =>
    rcases referenceTrace_turn n s with ⟨t, hgo, he⟩ | hend
    · rw [he, ih]
      constructor
      · rintro ⟨k, s', hk, hr, hend⟩
        exact ⟨k + 1, s', Nat.succ_lt_succ hk, (traceReaches_succ k s s').2 ⟨t, hgo, hr⟩, hend⟩
      · rintro ⟨k, s', hk, hr, hend⟩
        cases k with
        | zero =>
          obtain rfl : s' = s := hr
          exact absurd hend (hgo.not_turnEnds e)
        | succ k =>
          obtain ⟨t', hgo', hr'⟩ := (traceReaches_succ k s s').1 hr
          exact ⟨k, s', Nat.lt_of_succ_lt_succ hk, hgo.unique hgo' ▸ hr', hend⟩
    · constructor
      · rintro rfl
        exact ⟨0, s, Nat.succ_pos n, rfl, hend⟩
      · rintro ⟨k, s', -, hr, hend'⟩
        cases k with
        | zero =>
          obtain rfl : s' = s := hr
          exact hend'.trace n
        | succ k =>
          obtain ⟨t, hgo, -⟩ := (traceReaches_succ k s s').1 hr
          exact absurd hend (hgo.not_turnEnds _)

theorem referenceTrace_normal_iff (fuel : Nat) (s t : State) : referenceTrace fuel s = .normal t ↔
    ∃ (k : Nat) (s' : State), k < fuel ∧ TraceReaches k s s' ∧ s'.mem.word s'.pc = 0x3FFF ∧ step s' = .next t :=
  referenceTrace_eq_iff (by simp) fuel s

theorem referenceTrace_abnormal_iff (fuel : Nat) (s : State) (f : Fault) : referenceTrace fuel s = .abnormal f ↔
    ∃ (k : Nat) (s' : State), k < fuel ∧ TraceReaches k s s' ∧ step s' = .fault f :=
  referenceTrace_eq_iff (by simp) fuel s

theorem referenceTrace_refused_iff (fuel : Nat) (s : State) (h : Option Handoff) : referenceTrace fuel s = .refused h ↔
    ∃ (k : Nat) (s' t : State), k < fuel ∧ TraceReaches k s s' ∧ step s' = .next t ∧ s'.mem.word s'.pc ≠ 0x3FFF ∧
      ¬ HasReferenceMeaning t.handoff ∧ h = t.handoff := by
  rw [referenceTrace_eq_iff (by simp) fuel s]
  simp only [TurnEnds, exists_and_left]

/-- What has no meaning in the reference layer is a hand-over, and not MOV with b = 0. -/
theorem not_hasReferenceMeaning {h : Option Handoff} (hn : ¬ HasReferenceMeaning h) :
    ∃ h', h = some h' ∧ ¬ (h'.op = .double .mov ∧ h'.b = false) := by
  simpa [HasReferenceMeaning] using hn

/-! ### The states a trace reaches -/

/-- What holds of the start and is kept by every step that goes on holds of every reached state. -/
theorem TraceReaches.keeps {P : State → Prop} (hstep : ∀ {s t}, P s → step s = .next t → P t) {k : Nat} {s s' : State}
    (hs : P s) (h : TraceReaches k s s') : P s' := by
  induction k generalizing s with
  | zero => exact (h : s' = s) ▸ hs
  | succ k ih =>
    obtain ⟨t, ⟨hx, -, -⟩, hr⟩ := (traceReaches_succ k s s').1 h
    exact ih (hstep hs hx) hr

theorem TraceReaches.params {k : Nat} {s s' : State} (h : TraceReaches k s s') : s'.params = s.params :=
  h.keeps (P := fun u => u.params = s.params) (fun hu hx => (step_keeps_params hx).trans hu) rfl

/-- Events are only added (10_state.md R13). -/
theorem TraceReaches.ev {k : Nat} {s s' : State} (h : TraceReaches k s s') : ∃ l, s'.ev = s.ev ++ l := by
  refine h.keeps (P := fun u => ∃ l, u.ev = s.ev ++ l) ?_ ⟨[], (List.append_nil _).symm⟩
  rintro u t ⟨l, hl⟩ hx
  obtain ⟨i, hi, -⟩ := step_next_decoded hx
  exact ⟨_, by rw [step_events hi hx, hl, List.append_assoc]⟩

/-- Settles O52: the two ends as turns reached; reached states have the parameters of the start. -/
theorem tracesAreRefusedOutsideTheReferenceLayer : Obligations.TracesAreRefusedOutsideTheReferenceLayer := by
  refine ⟨referenceTrace_refused_iff, ?_, referenceTrace_abnormal_iff, fun _ _ _ => TraceReaches.params⟩
  intro fuel s h he
  obtain ⟨k, s', t, -, -, -, -, hn, rfl⟩ := (referenceTrace_refused_iff fuel s h).1 he
  exact not_hasReferenceMeaning hn

/-! ### What a trace goes on past (R171) -/

/-- MOV with b = 0 hands itself over, which has a meaning. -/
theorem hasReferenceMeaning_of_movWord {src dst : OperandRef} {s t : State} (h : exec (.mov src false dst) s = .next t) :
    HasReferenceMeaning t.handoff := by
  rcases resolveDouble_cases src dst s with ⟨v, loc, s1, s2, -, -, hr⟩ | ⟨e, -, hr⟩
  · have hx : exec (.mov src false dst) s = _ := exec_mkDouble_of_resolves .mov false hr
    rw [hx] at h; cases h
    rw [layerDouble_handoff]
    rintro h' ⟨⟩
    exact ⟨rfl, rfl⟩
  · have hx : exec (.mov src false dst) s = _ := (exec_mkDouble .mov src false dst s).1 e hr
    rw [hx] at h; cases h

/-- A jump hands nothing over, which has a meaning. -/
theorem hasReferenceMeaning_of_jump {c : Cond} {offset : Word} {s t : State} (hn : s.handoff = none)
    (h : exec (mkJump c offset) s = .next t) : HasReferenceMeaning t.handoff := by
  rw [exec_mkJump] at h
  have ht : t.handoff = none := by rcases runJump_next h with rfl | rfl <;> simpa using hn
  rw [ht]
  exact nofun

/-- Settles O53. -/
theorem tracesGoOnUntilTheHaltWord : Obligations.TracesGoOnUntilTheHaltWord :=
  ⟨referenceTrace_normal_iff, referenceTrace_outOfFuel_iff, fun _ _ _ _ => hasReferenceMeaning_of_movWord,
    fun _ _ _ _ => hasReferenceMeaning_of_jump⟩

/-! ### The normal end (R172) -/

/-- A step on the word 0x3FFF that goes on is a turn of the halt loop: under `msb_first_literal` the word does not decode (log
entry 10). -/
theorem eq_of_step_haltWord {s t : State} (hw : s.mem.word s.pc = 0x3FFF) (h : step s = .next t) :
    t = s.clearHandoff.afterStream.setPc s.pc := by
  have hf : StreamFits 1 s := by
    by_contra hn
    rw [step_of_fetch_overflow hn] at h
    cases h
  have hr : s.params.reading ≠ .msbFirstLiteral := by
    intro hr
    obtain ⟨i, hi, -⟩ := step_next_decoded h
    rw [hw, decode, hr] at hi
    cases hi
  rw [step_haltWord hr hw hf] at h
  cases h
  rfl

/-- Settles O51: the trace's last turn is one of the halt loop. -/
theorem normalEndIsTheHaltLoop : Obligations.NormalEndIsTheHaltLoop := by
  intro fuel s t h
  obtain ⟨k, s', -, hreach, hw, hx⟩ := (referenceTrace_normal_iff fuel s t).1 h
  obtain rfl := eq_of_step_haltWord hw hx
  obtain ⟨l, hl⟩ := hreach.ev
  refine ⟨?_, ⟨l, ?_⟩, ?_, ?_⟩
  · simpa using hw
  · simp [hl]
  · simpa using hreach.params
  · simp

/-! ### The word after RETI (R169, 41_single_operand.md R117) -/

/-- Where two words of the stream fit, one fits, and so does the one after it. -/
theorem streamFits_of_two {s t : State} (h : StreamFits 2 s) (hpc : t.pc = s.pc + 1) (hp : t.params = s.params) :
    StreamFits 1 s ∧ StreamFits 1 t := by
  rcases h with hw | hn
  · exact ⟨.inl hw, .inl (hp ▸ hw)⟩
  · have hone : s.pc.toNat + 1 ≤ 0xFFFF := Nat.le_of_succ_le hn
    refine ⟨.inr hone, .inr ?_⟩
    rw [hpc, toNat_pc_succ hone]
    exact hn

/-- Settles O54: RETI's layer leaves the pc that the fetch left, and memory. -/
theorem retiIsFollowedByTheNextWord : Obligations.RetiIsFollowedByTheNextWord := by
  intro s b dst hreti hf hi
  obtain ⟨hpc0, hev, -, hregs, hmem0, hparams0, -⟩ := ctx0_frame s
  generalize hctx0 : s.clearHandoff.afterStream = ctx0 at hpc0 hev hregs hmem0 hparams0
  obtain ⟨t, hx, -, htev, htregs, htpc, htmem, htparams⟩ := retiResolvesNoOperand dst b ctx0
  have hpc : t.pc = s.pc + 1 := (htpc (hparams0 ▸ hreti)).trans hpc0
  have hmem : SameMemory s t := fun a => (htmem a).trans (by rw [hmem0])
  have hparams : t.params = s.params := htparams.trans hparams0
  obtain ⟨hfs, hft⟩ := streamFits_of_two hf hpc hparams
  have hword : t.mem.word t.pc = s.mem.word (s.pc + 1) := by rw [hpc, hmem]
  have hupc : t.clearHandoff.afterStream.pc = s.pc + 2 := by
    rw [State.pc_afterStream, State.pc_clearHandoff, hpc, BitVec.add_assoc]
    rfl
  refine ⟨t, ?_, hpc, htev.trans hev, (hregs.trans htregs).mono (by simp), hmem, hparams,
    t.clearHandoff.afterStream, hword ▸ fetchInstruction_of_fits hft, hupc, ?_⟩
  · rw [step_of_decode hfs hi, hctx0, hx]
  · intro i hi'
    exact step_of_decode hft (by rw [hparams, hword, hi'])

end Sys2Proof.Machine
end
